-- ==== Sys2Proof/Word.lean ====
section
/-! DEFINITION. The machine word of the SMA: every limb, every bus transfer and every register is 64 bits wide (R5 `LIMB_W`, R51). -/

namespace Sys2Proof

/-- A 64-bit word, bit 0 least significant (R8): a command word, or a word a bus access transfers. -/
abbrev Word64 := BitVec 64

/-- One limb of a BigInt: a 64-bit word (R18 "limb"; R5 `LIMB_W`). A limb store word may hold any 64-bit value (R23). -/
abbrev Limb := BitVec 64

end Sys2Proof
end

