-- ==== Sys2Proof/Config.lean ====
section
/-! DEFINITION. The parameters of R5: the fixed ones as numbers, and the OPEN ones (MAXLIMBS, BASE) as a record whose
every value is legal, with one constant without a body for the chip at hand. The third OPEN parameter, LATENCY, is no
number here: where the execution step falls among the bus accesses is data of the state's schedule (log entry 2). -/

namespace Sys2Proof

/-- `MAGNITUDE`: decimal digits per limb (R5). -/
abbrev magnitude : Nat := 18

/-- `B`, the radix 10^18 (R5). -/
def radix : Nat := 1000000000000000000

/-- The largest limb value and the negative sign limb, `B-1`, as a limb (R5). -/
def maxLimb : Limb := 999999999999999999#64

/-- `LEN_MIN`: a BigInt has at least one magnitude limb and the sign limb (R5, R13). -/
abbrev lenMin : Nat := 2

/-- The bytes of window offsets from BASE (R50). -/
abbrev windowSize : Nat := 0x01800000

/-- The OPEN parameters of one SMA, held so that every value is a legal one: `spare` is MAXLIMBS - 3 with
`3 <= MAXLIMBS <= 65535`, and `slot` is BASE / 2^25 (R5). Log entry 1. -/
structure Config where
  /-- MAXLIMBS - 3. -/
  spare : Fin 65533
  /-- BASE / 2^25. -/
  slot : Nat
  deriving DecidableEq, Repr, Inhabited

/-- `MAXLIMBS`: the limb capacity of each BigInt register (R5). -/
def Config.maxLimbs (c : Config) : Nat := c.spare.val + 3

/-- `BASE`: the byte address of the bus window, a multiple of 2^25 (R5, R53). -/
def Config.base (c : Config) : Nat := 0x2000000 * c.slot

/-- The parameters of the chip at hand. The spec leaves them OPEN (R5, I5, I6), so nothing is known of this value but
that it is legal. Log entry 1. -/
opaque Config.implementation : Config

end Sys2Proof
end

