-- ==== Sys2Proof/Syntax.lean ====
section
/-! DEFINITION. The command set: the three operations of the opcode map (R73), the fields of the one command format R3
(R70), and the two ways a word fails to decode (R72). -/

namespace Sys2Proof

/-- A decoded command (R73). A register operand is an index 0 to 15 naming V0 to V15; all sixteen are valid (R71), so
no ill-formed term exists. -/
inductive Instr where
  /-- `add vD, vA, vB`: V[RD] <- Add(V[RA], V[RB]) (R130). -/
  | add (rd ra rb : Fin 16)
  /-- `neg vD, vA`: V[RD] <- Negate(V[RA]) (R131). -/
  | neg (rd ra : Fin 16)
  /-- `sub vD, vA, vB`: V[RD] <- Add(V[RA], Negate(V[RB])) (R132). -/
  | sub (rd ra rb : Fin 16)
  deriving DecidableEq, Repr

/-- The fields of a 64-bit command word in format R3 (R70). -/
structure Command where
  /-- OPC, bits [7:0]. -/
  opc : BitVec 8
  /-- RD, bits [11:8]. -/
  rd : BitVec 4
  /-- RA, bits [15:12]. -/
  ra : BitVec 4
  /-- RB, bits [19:16]. -/
  rb : BitVec 4
  /-- RSV, bits [63:20]. -/
  rsv : BitVec 44
  deriving DecidableEq, Repr

/-- Why a command word is no operation (R72). -/
inductive DecodeError where
  /-- OPC names no operation (R75). -/
  | illegalOpcode
  /-- A reserved field is not 0 (R76). -/
  | reservedField
  deriving DecidableEq, Repr

/-- The outcome of decoding: an operation with its register indexes, or an error (R72). -/
inductive Decoded where
  | ok (i : Instr)
  | error (e : DecodeError)
  deriving DecidableEq, Repr

end Sys2Proof
end

