-- ==== Sys2Proof/WellFormed.lean ====
section
/-! DEFINITION. Which command words are well-formed: the checks of R72, R75 and R76, each on its own, stated on the
format's fields. The decoder (Decode.lean) is written separately, from R72's order of checks; statements compare the two.
A term of `Instr` needs no check: its register indexes are bounded by their type (R71). -/

namespace Sys2Proof

/-- OPC names an operation (R75). -/
def Command.legalOpcode (c : Command) : Bool := c.opc == 0x01#8 || c.opc == 0x02#8 || c.opc == 0x03#8

/-- Bits [63:20] are 0 (R76). -/
def Command.reservedClear (c : Command) : Bool := c.rsv == 0#44

/-- A NEG word's RB field is 0 (R76). -/
def Command.negRbClear (c : Command) : Bool := !(c.opc == 0x02#8) || c.rb == 0#4

/-- The word is an operation. -/
def Command.wellFormed (c : Command) : Bool := c.legalOpcode && c.reservedClear && c.negRbClear

end Sys2Proof
end

