-- ==== Sys2Proof/Decode.lean ====
section
/-! DEFINITION. Decoding a command word (R70 to R76), total on every 64-bit word, and the encoder written from the
same format (R70, R78). -/

namespace Sys2Proof

/-- The fields of a word (R70). -/
def Command.ofWord (w : Word64) : Command where
  opc := w.extractLsb' 0 8
  rd  := w.extractLsb' 8 4
  ra  := w.extractLsb' 12 4
  rb  := w.extractLsb' 16 4
  rsv := w.extractLsb' 20 44

/-- The BigInt register a field names: index r names Vr, unsigned, all 16 values valid (R71). -/
def regIndex (f : BitVec 4) : Fin 16 := ⟨f.toNat, f.isLt⟩

/-- R72: the checks in the spec's order. -/
def decode (w : Word64) : Decoded :=
  let c := Command.ofWord w
  if ¬ (c.opc = 0x01#8 ∨ c.opc = 0x02#8 ∨ c.opc = 0x03#8) then .error .illegalOpcode
  else if c.rsv ≠ 0#44 then .error .reservedField
  else if c.opc = 0x02#8 ∧ c.rb ≠ 0#4 then .error .reservedField
  else if c.opc = 0x01#8 then .ok (.add (regIndex c.rd) (regIndex c.ra) (regIndex c.rb))
  else if c.opc = 0x02#8 then .ok (.neg (regIndex c.rd) (regIndex c.ra))
  else .ok (.sub (regIndex c.rd) (regIndex c.ra) (regIndex c.rb))

/-- The word with the given fields in format R3 (R70). -/
def Command.toWord (c : Command) : Word64 := c.rsv ++ c.rb ++ c.ra ++ c.rd ++ c.opc

/-- The field that names a register. -/
def regField (r : Fin 16) : BitVec 4 := BitVec.ofNat 4 r.val

/-- The command word of an operation (R73, R78). -/
def encode : Instr → Word64
  | .add rd ra rb => Command.toWord ⟨0x01#8, regField rd, regField ra, regField rb, 0#44⟩
  | .neg rd ra    => Command.toWord ⟨0x02#8, regField rd, regField ra, 0#4, 0#44⟩
  | .sub rd ra rb => Command.toWord ⟨0x03#8, regField rd, regField ra, regField rb, 0#44⟩

/-- The 64-bit command word whose low `nbits` bits are `w` and whose bits above are 0. -/
def tableWord (nbits w : Nat) : Word64 := BitVec.ofNat 64 (w % 2 ^ nbits)

/-- The operation of a decoded word, if it is one. -/
def Decoded.instr? : Decoded → Option Instr
  | .ok i    => some i
  | .error _ => none

/-- The instruction the decoder reads from a word numbered as the opcode table numbers it. A command is one 64-bit word
(R70), so the table's bit numbers are the word's own. -/
def decodeTableWord (nbits w : Nat) : Option Instr := (decode (tableWord nbits w)).instr?

end Sys2Proof
end

