-- ==== Sys2Proof/Machine/Arith.lean ====
section
/-! DEFINITION. The arithmetic core: pure functions of limb lists, least-significant limb first (R9, R90 to R99). -/

namespace Sys2Proof.Machine

/-- The limb adder cell (R90): the exact sum, reduced once by B, and the carry out. -/
def cell (x y : Limb) (cin : Bool) : Limb × Bool :=
  let s := x.toNat + y.toNat + cin.toNat
  if s ≥ radix then (BitVec.ofNat 64 (s - radix), true) else (BitVec.ofNat 64 s, false)

/-- Limb i of an operand, 0 beyond its length whatever its sign (zero-fill, R91). -/
def limbAt (v : List Limb) (i : Nat) : Limb := v.getD i 0#64

/-- The sign limb, the last one (R14). -/
def signLimb (v : List Limb) : Limb := v.getLastD 0#64

/-- The loop of ADD_CORE over `n` positions from position `i` on: the limbs and the last carry (R92). -/
def addLoop (a b : List Limb) : Nat → Nat → Bool → List Limb × Bool
  | 0, _, carry => ([], carry)
  | n + 1, i, carry =>
    let x := cell (limbAt a i) (limbAt b i) carry
    let rest := addLoop a b n (i + 1) x.2
    (x.1 :: rest.1, rest.2)

/-- The four outputs of the core functions (R92). -/
structure CoreOut where
  /-- The result list. -/
  r : List Limb
  /-- The carry out of the sign position, no part of the result (R93). -/
  cout : Bool
  /-- A limb 0 was appended (R94). -/
  grow : Bool
  /-- A negative operand shorter than the other was zero-filled (R96). -/
  zfill : Bool
  deriving DecidableEq, Repr

/-- `v` is negative and shorter than N (R96). -/
def shortNegative (v : List Limb) (n : Nat) : Bool := decide (v.length < n) && signLimb v == maxLimb

/-- ADD_CORE (R92): the loop over the longer length, then growth when the sign position holds exactly 1 (R94). -/
def addCore (a b : List Limb) : CoreOut :=
  let n := max a.length b.length
  let loop := addLoop a b n 0 false
  let grow := signLimb loop.1 == 1#64
  { r := if grow then loop.1 ++ [0#64] else loop.1
    cout := loop.2
    grow := grow
    zfill := shortNegative a n || shortNegative b n }

/-- COMP, the diminished-radix complement of every limb, the sign limb included (R97). -/
def comp (v : List Limb) : List Limb := v.map fun x => maxLimb - x

/-- The constant ONE (R15). -/
def one : List Limb := [1#64, 0#64]

/-- NEG_CORE (R98). -/
def negCore (a : List Limb) : CoreOut := addCore (comp a) one

/-- SUB_CORE (R99): the outputs of the final Add. -/
def subCore (a b : List Limb) : CoreOut := addCore a (negCore b).r

end Sys2Proof.Machine
end

