-- ==== Sys2Proof/Machine/State.lean ====
section
/-! DEFINITION. The state of the SMA as plain data (R20 to R38), what the outside world does to it (bus accesses, the
reset input, where the execution step falls), and the reasons a step can stop. -/

namespace Sys2Proof.Machine

/-- The value of STATUS.ERR (R151). The codes 6 to 15 are reserved and never produced, so they have no constructor (I7). -/
inductive ErrCode where
  /-- 0, NONE: the last command completed and committed, or none has completed. -/
  | noError
  /-- 1, ILLEGAL_OPCODE (R152). -/
  | illegalOpcode
  /-- 2, RESERVED_FIELD (R153). -/
  | reservedField
  /-- 3, MALFORMED_A (R154). -/
  | malformedA
  /-- 4, MALFORMED_B (R154). -/
  | malformedB
  /-- 5, CAPACITY (R155). -/
  | capacity
  deriving DecidableEq, Repr

/-- STATUS but for BUSY (R27). Its 64-bit word, reserved bits included, is `State.statusWord`. BUSY has its home in
`State.pend`. -/
structure Status where
  err     : ErrCode
  cout    : Bool
  grow    : Bool
  neg     : Bool
  zero    : Bool
  signbad : Bool
  zfill   : Bool
  ovr     : Bool
  wbusy   : Bool
  deriving DecidableEq, Repr

/-- The limb words of one register: pairs (limb index, word), indexes strictly rising. An index not listed has not been
written since reset (R38). -/
abbrev LimbStore := List (Nat × Limb)

/-- The canonical form of a limb store: indexes strictly rising, so equal stores are equal data. (An unlisted index
reads as no value, so no entry can equal it.) -/
abbrev LimbStore.wf (m : LimbStore) : Prop := (m.map Prod.fst).Pairwise (· < ·)

/-- One BigInt register: bits [15:0] of LEN[k] (its other bits read 0, R22) and the limb words LIMB[k][i] (R21, R23). -/
structure VReg where
  len   : BitVec 16
  limbs : LimbStore
  deriving DecidableEq, Repr

/-- One host access: a read, or a write of `data`, of `width` bytes at byte address `addr` (R50 to R52). -/
inductive BusAccess where
  | read (addr width : Nat)
  | write (addr width : Nat) (data : Word64)
  deriving DecidableEq, Repr

/-- What the outside world does next. LATENCY is OPEN (R5, R121): the place of `execute` among the bus accesses says
when an accepted command takes its execution step. -/
inductive Event where
  /-- The bus delivers an access (R60). -/
  | bus (a : BusAccess)
  /-- The internal execution step falls here, if a command is pending (R121). -/
  | execute
  /-- The platform asserts the reset input; power-up is the same (R170). -/
  | assertReset
  /-- The platform releases the reset input (R170). -/
  | releaseReset
  deriving DecidableEq, Repr

/-- What the host gets back from one access. -/
inductive Response where
  /-- A write completed (it may have been ignored or dropped: R55, R141, R142). -/
  | done
  /-- A read returned this word. -/
  | data (w : Word64)
  deriving DecidableEq, Repr

/-- The SMA and its surroundings. -/
structure State where
  /-- MAXLIMBS and BASE of this SMA; no step changes it (R5). -/
  config : Config
  /-- V0 to V15 (R21). -/
  vregs : Vector VReg 16
  /-- STATUS but for BUSY (R27). -/
  status : Status
  /-- PEND, the command word latched at acceptance (R35). It is valid while BUSY = 1, and BUSY is 1 exactly while a
  command is accepted and not completed (R28): `some w` is BUSY = 1 with PEND = w, `none` is BUSY = 0. -/
  pend : Option Word64
  /-- CMD_last, what a read of CMD returns (R31). -/
  cmdLast : Word64
  /-- STAGE, the result buffer (R35). -/
  stage : List Limb
  /-- The reset input's level (R170). -/
  resetAsserted : Bool
  /-- What the outside world does from here on, oldest first. -/
  schedule : List Event
  /-- What the host's accesses returned, newest first. -/
  responses : List Response
  deriving DecidableEq, Repr

/-- The reasons the machine stops with a fault. Every one is an access or a command the spec tells a model to fault
(R175); stopping there is safe: no claim about what follows can be proved. -/
inductive Fault where
  /-- Raised by a bus access whose address lies outside the window (R50, R53): it is not the SMA's. Safe. -/
  | outsideWindow
  /-- Raised by a bus access that is not exactly 8 bytes wide (R51, R156). Safe. -/
  | busWidth
  /-- Raised by a bus access at an offset that is no multiple of 8 (R52, R156). Safe. -/
  | busMisaligned
  /-- Raised by an aligned 64-bit access to an offset the address map does not list (R54, R156). Safe. -/
  | busUnmapped
  /-- Raised by a bus access while reset is asserted (R170, R175, I3). Safe. -/
  | accessInReset
  /-- Raised by a host read of a limb word not written since reset (R38, R175, I1). Safe. -/
  | unwrittenRead
  /-- Raised by ADD, NEG and SUB when a limb of an operand was not written since reset (R38, R123, I1). Safe. -/
  | unwrittenOperand
  deriving DecidableEq, Repr

/-- The reasons the machine refuses. Safe: a refusal proves nothing. -/
inductive Refusal where
  /-- Raised by the dispatcher for an instruction that has no meaning yet; no arm raises it now. Safe. -/
  | notModelled (mnemonic : String)
  deriving DecidableEq, Repr

/-- STATUS after reset: 0 (R37). -/
def Status.reset : Status where
  err := .noError
  cout := false
  grow := false
  neg := false
  zero := false
  signbad := false
  zfill := false
  ovr := false
  wbusy := false

/-- A register after reset: LEN 0, every limb word unwritten (R37, R38). -/
def VReg.reset : VReg where
  len := 0#16
  limbs := []

/-- An SMA with the given parameters right after reset (R37), nothing scheduled from outside. STAGE is unspecified and
never observable after reset; it is held empty (log entry 5). -/
def State.resetWith (c : Config) : State where
  config := c
  vregs := Vector.replicate 16 VReg.reset
  status := Status.reset
  pend := none
  cmdLast := 0#64
  stage := []
  resetAsserted := false
  schedule := []
  responses := []

/-- The chip at hand right after reset (R37). -/
def State.reset : State := State.resetWith Config.implementation

end Sys2Proof.Machine
end

