-- ==== Sys2Proof/Machine/Flags.lean ====
section
/-! DEFINITION. STATUS: its 64-bit word (R27), BUSY (R28), the result flags a completed command sets (R127), and
clearing at acceptance (R120) and by the host (R30). -/

namespace Sys2Proof.Machine

/-- STATUS.BUSY: a command is accepted and not completed (R28). -/
def State.busy (s : State) : Bool := s.pend.isSome

/-- The code of an error in STATUS.ERR (R151). -/
def ErrCode.code : ErrCode → BitVec 4
  | .noError       => 0
  | .illegalOpcode => 1
  | .reservedField => 2
  | .malformedA    => 3
  | .malformedB    => 4
  | .capacity      => 5

/-- The STATUS word a host reads (R27): from bit 63 down, the reserved bits reading 0. -/
def State.statusWord (s : State) : Word64 :=
  0#46 ++ BitVec.ofBool s.status.wbusy ++ BitVec.ofBool s.status.ovr ++ 0#2 ++
  BitVec.ofBool s.status.zfill ++ BitVec.ofBool s.status.signbad ++ BitVec.ofBool s.status.zero ++
  BitVec.ofBool s.status.neg ++ BitVec.ofBool s.status.grow ++ BitVec.ofBool s.status.cout ++
  s.status.err.code ++ 0#3 ++ BitVec.ofBool s.busy

/-- ERR and the six result flags set to 0, the sticky bits kept (R29, R120). -/
def Status.cleared (st : Status) : Status :=
  { Status.reset with ovr := st.ovr, wbusy := st.wbusy }

/-- The STATUS fields a committed result leaves (R127); the sticky bits are kept (R30). -/
def Status.completed (st : Status) (c : CoreOut) : Status :=
  { st with
    err     := .noError
    cout    := c.cout
    grow    := c.grow
    neg     := signLimb c.r == maxLimb
    zero    := c.r.all (· == 0#64)
    signbad := !(signLimb c.r == 0#64 || signLimb c.r == maxLimb)
    zfill   := c.zfill }

/-- A host write to STATUS: a 1 in bit 16 clears OVR and a 1 in bit 17 clears WBUSY; nothing else changes (R30, R55). -/
def Status.hostWrite (st : Status) (w : Word64) : Status :=
  { st with
    ovr   := st.ovr && !w.getLsbD 16
    wbusy := st.wbusy && !w.getLsbD 17 }

end Sys2Proof.Machine
end

