-- ==== Sys2Proof/Machine/Operands.lean ====
section
/-! DEFINITION. Reading registers: one limb word, the limb list V[k] (R10, R25), and a register read as an operand with
the check WF (R13, R123). -/

namespace Sys2Proof.Machine

/-- The limb word at index i; `none` if it was not written since reset (R38). -/
def LimbStore.word? : LimbStore → Nat → Option Limb
  | [], _ => none
  | (j, x) :: m, i => if j = i then some x else LimbStore.word? m i

/-- The `n` limb words from index `i` on; `none` if one of them was not written since reset (R38). -/
def LimbStore.words? (m : LimbStore) : Nat → Nat → Option (List Limb)
  | _, 0 => some []
  | i, n + 1 =>
    match LimbStore.word? m i, LimbStore.words? m (i + 1) n with
    | some x, some xs => some (x :: xs)
    | _, _ => none

/-- Register Vk: its length field and its limb words (R21). No register is hardwired. -/
def State.vreg (s : State) (k : Fin 16) : VReg := s.vregs[k.val]

/-- V[k], the limbs 0 to LEN[k]-1 (R10, R25); `none` if one of them was not written since reset (R38). -/
def State.value? (s : State) (k : Fin 16) : Option (List Limb) :=
  LimbStore.words? (s.vreg k).limbs 0 (s.vreg k).len.toNat

/-- A length a BigInt may have: LEN_MIN to MAXLIMBS (R13). -/
def lengthOk (maxLimbs n : Nat) : Bool := decide (lenMin ≤ n) && decide (n ≤ maxLimbs)

/-- Every non-sign limb lies in [0, B) and the sign limb is 0 or B-1 (R13). -/
def limbsOk (v : List Limb) : Bool :=
  v.dropLast.all (fun x => decide (x.toNat < radix)) && (signLimb v == 0#64 || signLimb v == maxLimb)

/-- WF(v) (R13). -/
def WF (maxLimbs : Nat) (v : List Limb) : Bool := lengthOk maxLimbs v.length && limbsOk v

/-- What reading a register as an operand gives. -/
inductive OperandRead where
  /-- A well-formed limb list. -/
  | ok (v : List Limb)
  /-- Not well-formed (R123). -/
  | malformed
  /-- Its value rests on a limb word not written since reset (R38). -/
  | unwritten
  deriving DecidableEq, Repr

/-- The limb words of Vk among positions 0 to LEN-1, the range a command reads (R38); `none` if one of them was not written
since reset. A register has MAXLIMBS limb words (R23), so a length above MAXLIMBS reaches no more than those (log entry
4). Where the length is in range this is V[k]. -/
def State.operandWords? (s : State) (k : Fin 16) : Option (List Limb) :=
  LimbStore.words? (s.vreg k).limbs 0 (min (s.vreg k).len.toNat s.config.maxLimbs)

/-- Reading Vk as an operand (R123). A limb word not written since reset in the range, whatever the length and the other
words, leaves the check without a value (R38, R123); otherwise the check is R13's. -/
def readOperand (s : State) (k : Fin 16) : OperandRead :=
  match s.operandWords? k with
  | none => .unwritten
  | some v => if lengthOk s.config.maxLimbs (s.vreg k).len.toNat && limbsOk v then .ok v else .malformed

end Sys2Proof.Machine
end

