-- ==== Sys2Proof/Machine/Ops.lean ====
section
/-! DEFINITION. The shared operations: writing limb words and registers, accepting a command (R120), raising an error
(R150), committing and completing (R126, R127), and reset (R170). -/

namespace Sys2Proof.Machine

/-- Write one limb word, keeping the store canonical. -/
def LimbStore.put : LimbStore → Nat → Limb → LimbStore
  | [], i, x => [(i, x)]
  | (j, y) :: m, i, x =>
    if i < j then (i, x) :: (j, y) :: m
    else if i = j then (i, x) :: m
    else (j, y) :: LimbStore.put m i x

/-- Write limb words from index `i` on; words above the last one written keep their contents (R24). -/
def LimbStore.putAll : LimbStore → Nat → List Limb → LimbStore
  | m, _, [] => m
  | m, i, x :: xs => LimbStore.putAll (LimbStore.put m i x) (i + 1) xs

/-- Replace register Vk. -/
def State.setVReg (s : State) (k : Fin 16) (r : VReg) : State :=
  { s with vregs := s.vregs.set k.val r }

/-- `V[k] <- v` (R10): LEN[k] <- len(v), then limbs 0 to len(v)-1; the limb words above are untouched. -/
def State.setValue (s : State) (k : Fin 16) (v : List Limb) : State :=
  s.setVReg k { len := BitVec.ofNat 16 v.length, limbs := LimbStore.putAll (s.vreg k).limbs 0 v }

/-- Acceptance of a command word while idle (R120). Every word is accepted, legal or not. -/
def accept (w : Word64) (s : State) : State :=
  { s with pend := some w, cmdLast := w, status := s.status.cleared }

/-- `raise e` (R150): the one way a command ends in error. ERR is set and BUSY cleared; the result flags stay as
acceptance left them, and no register is written. Nothing is saved and no control is transferred, so there is no return
(R159, R160). -/
def raise (e : ErrCode) (s : State) : State :=
  { s with status := { s.status with err := e }, pend := none }

/-- The error code of a decode error (R151). -/
def decodeErrCode : DecodeError → ErrCode
  | .illegalOpcode => .illegalOpcode
  | .reservedField => .reservedField

/-- Hold a list in STAGE (R35). -/
def State.setStage (s : State) (v : List Limb) : State := { s with stage := v }

/-- The end of an operation whose core outputs are `c` (R122): the result is held in STAGE, a result longer than MAXLIMBS
raises CAPACITY (R124), and any other is committed to V[rd] from STAGE in the same step (R126) with the STATUS fields of
R127 and BUSY cleared. -/
def retire (rd : Fin 16) (c : CoreOut) (s : State) : State :=
  let held := s.setStage c.r
  if c.r.length > s.config.maxLimbs then raise .capacity held
  else { held.setValue rd held.stage with status := s.status.completed c, pend := none }

/-- Read Vk as an operand and go on with its limb list (R123): `e` is raised if it is malformed, and the machine faults
if the check meets a limb word not written since reset (R38). -/
def withOperand (s : State) (k : Fin 16) (e : ErrCode) (go : List Limb → Host.Outcome State Fault Refusal) :
    Host.Outcome State Fault Refusal :=
  match readOperand s k with
  | .ok v => go v
  | .malformed => .next (raise e s)
  | .unwritten => .fault .unwrittenOperand

/-- Every piece of the SMA's state takes its reset value and the reset input is at `level` (R170); an in-flight command
is abandoned. The parameters, the outside world's plan and the host's record of responses are not the SMA's state. -/
def resetTo (level : Bool) (s : State) : State :=
  { State.resetWith s.config with
    resetAsserted := level
    schedule := s.schedule
    responses := s.responses }

end Sys2Proof.Machine
end

