-- ==== Sys2Proof/Machine/Bus.lean ====
section
/-! DEFINITION. The bus window: its address map (R53), the checks on an access (R51, R52, R54), and what a read returns
and a write does (R55, R59, R141 to R143). -/

namespace Sys2Proof.Machine

/-- A mapped word of the window (R53). -/
inductive Slot where
  | id
  | radix
  | cmd
  | status
  /-- LEN[k]. -/
  | len (k : Fin 16)
  /-- LIMB[k][i]. -/
  | limb (k : Fin 16) (i : Nat)
  deriving DecidableEq, Repr

/-- The offset of LEN[0] (R53). -/
def lenBase : Nat := 0x0100

/-- The offset of LIMB[0][0] (R53). -/
def limbBase : Nat := 0x01000000

/-- The bytes of limb space of one register (R53). -/
def limbStride : Nat := 0x00080000

/-- The byte offset of a mapped word from BASE (R53). -/
def Slot.offset : Slot → Nat
  | .id       => 0x0000
  | .radix    => 0x0008
  | .cmd      => 0x0010
  | .status   => 0x0018
  | .len k    => lenBase + 8 * k.val
  | .limb k i => limbBase + limbStride * k.val + 8 * i

/-- The word at an 8-byte-aligned offset, if the map lists the offset (R53, R54). -/
def slotAt (maxLimbs off : Nat) : Option Slot :=
  if off = 0x0000 then some .id
  else if off = 0x0008 then some .radix
  else if off = 0x0010 then some .cmd
  else if off = 0x0018 then some .status
  else if lenBase ≤ off ∧ off < lenBase + 8 * 16 then some (.len (Fin.ofNat 16 ((off - lenBase) / 8)))
  else if limbBase ≤ off ∧ off < limbBase + limbStride * 16 then
    let k := (off - limbBase) / limbStride
    let i := (off - limbBase) % limbStride / 8
    if i < maxLimbs then some (.limb (Fin.ofNat 16 k) i) else none
  else none

/-- The address of an access. -/
def BusAccess.addr : BusAccess → Nat
  | .read a _    => a
  | .write a _ _ => a

/-- The width of an access in bytes. -/
def BusAccess.width : BusAccess → Nat
  | .read _ n    => n
  | .write _ n _ => n

/-- The mapped word an access reaches, or the fault a model answers with (R50 to R54, R156). -/
def locate (c : Config) (a : BusAccess) : Except Fault Slot :=
  if ¬ (c.base ≤ a.addr ∧ a.addr - c.base < windowSize) then .error .outsideWindow
  else if a.width ≠ 8 then .error .busWidth
  else if (a.addr - c.base) % 8 ≠ 0 then .error .busMisaligned
  else match slotAt c.maxLimbs (a.addr - c.base) with
    | none => .error .busUnmapped
    | some slot => .ok slot

/-- The ID word (R32): VERSION 1, LIMB_W 64, MAXLIMBS, NVREG 16, MAGNITUDE 18, from bit 63 down. -/
def idWord (c : Config) : Word64 :=
  1#16 ++ 64#16 ++ BitVec.ofNat 16 c.maxLimbs ++ 16#8 ++ BitVec.ofNat 8 magnitude

/-- The RADIX word (R33). -/
def radixWord : Word64 := BitVec.ofNat 64 radix

/-- The LEN word of a register: bits [63:16] read 0 (R22). -/
def VReg.lenWord (r : VReg) : Word64 := r.len.setWidth 64

/-- What a read of a mapped word returns; `none` for a limb word not written since reset (R38). Reads are the same while
BUSY = 1 (R143). -/
def readSlot (s : State) : Slot → Option Word64
  | .id       => some (idWord s.config)
  | .radix    => some radixWord
  | .cmd      => some s.cmdLast
  | .status   => some s.statusWord
  | .len k    => some (s.vreg k).lenWord
  | .limb k i => LimbStore.word? (s.vreg k).limbs i

/-- A LEN or LIMB write while BUSY = 1: dropped, and WBUSY is set (R142). -/
def dropRegisterWrite (s : State) : State := { s with status := { s.status with wbusy := true } }

/-- A CMD write while BUSY = 1: dropped, and OVR is set (R141). -/
def dropCommand (s : State) : State := { s with status := { s.status with ovr := true } }

/-- What a write to a mapped word does (R55). -/
def writeSlot (s : State) (w : Word64) : Slot → State
  | .id       => s
  | .radix    => s
  | .cmd      => if s.busy then dropCommand s else accept w s
  | .status   => { s with status := s.status.hostWrite w }
  | .len k    =>
    if s.busy then dropRegisterWrite s
    else s.setVReg k { s.vreg k with len := w.setWidth 16 }
  | .limb k i =>
    if s.busy then dropRegisterWrite s
    else s.setVReg k { s.vreg k with limbs := LimbStore.put (s.vreg k).limbs i w }

/-- Record what the host gets back. -/
def respond (r : Response) (s : State) : State := { s with responses := r :: s.responses }

/-- One access to a mapped word. -/
def accessSlot (s : State) (slot : Slot) : BusAccess → Host.Outcome State Fault Refusal
  | .read _ _ =>
    match readSlot s slot with
    | some w => .next (respond (.data w) s)
    | none => .fault .unwrittenRead
  | .write _ _ w => .next (respond .done (writeSlot s w slot))

/-- One bus access, performed completely (R58, R60). An access while reset is asserted has unspecified effect (R170, I3). -/
def busAccess (a : BusAccess) (s : State) : Host.Outcome State Fault Refusal :=
  if s.resetAsserted then .fault .accessInReset
  else match locate s.config a with
    | .error f => .fault f
    | .ok slot => accessSlot s slot a

/-- Byte lane j of a word, where a platform bridge exposes lanes: bits [8j+7:8j] (R57). No access of the window sees it. -/
def byteLane (w : Word64) (j : Fin 8) : BitVec 8 := w.extractLsb' (8 * j.val) 8

end Sys2Proof.Machine
end

