-- ==== Sys2Proof/Machine/Commands.lean ====
section
/-! DEFINITION. The meanings of the three commands: the part of EXEC(w) (R122) that follows decoding. Operands are read
in full before the commit, so a destination may be a source (R126). -/

namespace Sys2Proof.Machine

/-- ADD (R130): RA is checked first, then RB (R123). -/
def execAdd (rd ra rb : Fin 16) (s : State) : Host.Outcome State Fault Refusal :=
  withOperand s ra .malformedA fun a =>
  withOperand s rb .malformedB fun b =>
  .next (retire rd (addCore a b) s)

/-- NEG (R131): only RA is read. -/
def execNeg (rd ra : Fin 16) (s : State) : Host.Outcome State Fault Refusal :=
  withOperand s ra .malformedA fun a =>
  .next (retire rd (negCore a) s)

/-- SUB (R132): Add of the minuend and the negated subtrahend, which STAGE holds and which is not checked against
MAXLIMBS on its own. The flags are the final Add's. -/
def execSub (rd ra rb : Fin 16) (s : State) : Host.Outcome State Fault Refusal :=
  withOperand s ra .malformedA fun a =>
  withOperand s rb .malformedB fun b =>
  let held := s.setStage (negCore b).r
  .next (retire rd (addCore a held.stage) held)

end Sys2Proof.Machine
end

