-- ==== Sys2Proof/Machine/Dispatch.lean ====
section
/-! DEFINITION. The dispatcher: one arm per operation of the opcode map (R73). -/

namespace Sys2Proof.Machine

def exec (i : Instr) (s : State) : Host.Outcome State Fault Refusal :=
  match i with
  | .add rd ra rb => Sys2Proof.Machine.execAdd rd ra rb s
  | .neg rd ra => Sys2Proof.Machine.execNeg rd ra s
  | .sub rd ra rb => Sys2Proof.Machine.execSub rd ra rb s

end Sys2Proof.Machine
end

