-- ==== Sys2Proof/Machine/Cycle.lean ====
section
/-! DEFINITION. The command cycle (R120 to R122): the execution step of the pending command, and one event from outside. -/

namespace Sys2Proof.Machine

/-- EXEC(w) (R122): a decode error is raised, and an operation runs. -/
def execWord (w : Word64) (s : State) : Host.Outcome State Fault Refusal :=
  match decode w with
  | .error e => .next (raise (decodeErrCode e) s)
  | .ok i => exec i s

/-- The internal execution step (R121): enabled exactly while BUSY = 1. -/
def executeStep (s : State) : Host.Outcome State Fault Refusal :=
  match s.pend with
  | some w => execWord w s
  | none => .next s

/-- One event, in a state whose schedule holds the events after it. Releasing a reset input that is not asserted is no
change of it. -/
def perform (e : Event) (s : State) : Host.Outcome State Fault Refusal :=
  match e with
  | .bus a => busAccess a s
  | .execute => executeStep s
  | .assertReset => .next (resetTo true s)
  | .releaseReset => .next (if s.resetAsserted then resetTo false s else s)

/-- The state with a command word accepted (R120) and its execution step as what comes next (R121). -/
def withPending (w : Word64) (s : State) : State :=
  { accept w s with schedule := .execute :: s.schedule }

end Sys2Proof.Machine
end

