-- ==== Sys2Proof/Machine/Step.lean ====
section
/-! DEFINITION. One step: the next event of the schedule, or, when nothing is left outside, the pending command's
execution step, which is then the only thing that can happen (R121, R144). -/

namespace Sys2Proof.Machine

/-- One step. With an empty schedule and no pending command the run has ended (R180) and the state stays. -/
def step (s : State) : Host.Outcome State Fault Refusal :=
  match s.schedule with
  | [] => executeStep s
  | e :: rest => perform e { s with schedule := rest }

/-- `s` with the command word `w` where the next step runs it: the SMA has no instruction memory (R20), so the word is
accepted as a CMD write accepts it (R120) and its execution step comes next. Log entry 3. -/
def State.withFetchWord (s : State) (nbits w : Nat) : State :=
  withPending (tableWord nbits w) s

end Sys2Proof.Machine
end

