-- ==== Sys2Proof/Machine/HostSide.lean ====
section
/-! DEFINITION. What the spec gives the host: the assembler's syntax (R78), the notation for its bus traffic (R80), and
the observation at the end of a run (R180). None of it is hardware. -/

namespace Sys2Proof.Machine

/-- A decimal digit character. -/
def digitOf (c : Char) : Option Nat :=
  if '0' ≤ c ∧ c ≤ '9' then some (c.toNat - '0'.toNat) else none

/-- The register a name `v0` to `v15` names; names are case-insensitive (R78). -/
def regOfName (name : List Char) : Option (Fin 16) :=
  match name.map Char.toLower with
  | ['v', d] => (digitOf d).map (Fin.ofNat 16)
  | ['v', '1', d] => (digitOf d).bind fun n => if n < 6 then some (Fin.ofNat 16 (10 + n)) else none
  | _ => none

/-- The operation a line of assembler names: its mnemonic, case-insensitive, and its register names, destination first
(R78). There are no pseudo-instructions (R79). -/
def assemble (mnemonic : List Char) (regs : List (List Char)) : Option Instr :=
  match mnemonic.map Char.toLower, regs.mapM regOfName with
  | ['a', 'd', 'd'], some [d, a, b] => some (.add d a b)
  | ['n', 'e', 'g'], some [d, a] => some (.neg d a)
  | ['s', 'u', 'b'], some [d, a, b] => some (.sub d a b)
  | _, _ => none

/-- `wr OFF, VAL` (R80). -/
def hostWrite (c : Config) (off : Nat) (w : Word64) : Event := .bus (.write (c.base + off) 8 w)

/-- `rd OFF` (R80). -/
def hostRead (c : Config) (off : Nat) : Event := .bus (.read (c.base + off) 8)

/-- `cmd <asm>` (R80). -/
def hostCommand (c : Config) (i : Instr) : Event := hostWrite c Slot.cmd.offset (encode i)

/-- `poll` (R80), where `n` reads of STATUS return BUSY = 1 before the execution step and one read follows it. -/
def hostPoll (c : Config) (n : Nat) : List Event :=
  List.replicate n (hostRead c Slot.status.offset) ++ [.execute, hostRead c Slot.status.offset]

/-- `setv vK, [l0, ..., ln-1]` (R80): the length, then each limb. -/
def hostSetValue (c : Config) (k : Fin 16) (v : List Limb) : List Event :=
  hostWrite c (Slot.len k).offset (BitVec.ofNat 64 v.length) ::
    v.zipIdx.map fun p => hostWrite c (Slot.limb k p.2).offset p.1

/-- What is observed of a machine at the end of a run: the BigInt registers, STATUS and CMD_last (R180). A register is
its length and its limbs below the length; words at and above it are no part of the observation. -/
structure Observation where
  /-- Of each register, LEN and its limb words below LEN, of which there are at most MAXLIMBS; a word never written since
  reset has no value (R38), and the others are observed beside it. -/
  registers : List (BitVec 16 × List (Option Limb))
  status : Word64
  cmdLast : Word64
  deriving DecidableEq, Repr

/-- The limb words of Vk that are observed: those at positions below LEN and MAXLIMBS (R23, R180). -/
def State.observedLimbs (s : State) (k : Fin 16) : List (Option Limb) :=
  (List.range (min (s.vreg k).len.toNat s.config.maxLimbs)).map (LimbStore.word? (s.vreg k).limbs)

/-- The observation of a state. -/
def State.observe (s : State) : Observation where
  registers := (List.finRange 16).map fun k => ((s.vreg k).len, s.observedLimbs k)
  status := s.statusWord
  cmdLast := s.cmdLast

/-- The end of a run: the host has issued its last access and BUSY = 0 (R180). -/
def State.ended (s : State) : Prop := s.schedule = [] ∧ s.busy = false

end Sys2Proof.Machine
end

