-- ==== Sys2Proof/Machine/Value.lean ====
section
/-! DEFINITION. The value functions the arithmetic rules are stated through (R11 to R15, R102), and the host-side
reference codec (R16, R17), which is no hardware. -/

namespace Sys2Proof.Machine

/-- U(v), the unsigned base-B value of a limb list (R11). -/
def unsignedValue : List Limb → Nat
  | [] => 0
  | x :: v => x.toNat + radix * unsignedValue v

/-- val(v), the signed value: U(v), less B^n when the sign limb is B-1 (R12). -/
def signedValue (v : List Limb) : Int :=
  (unsignedValue v : Int) - if signLimb v = maxLimb then (radix : Int) ^ v.length else 0

/-- A limb list is negative when its sign limb is B-1 (R14). -/
def isNegative (v : List Limb) : Bool := signLimb v == maxLimb

/-- eff(v), what an operand contributes to an Add over N positions (R102). -/
def effectiveValue (v : List Limb) (n : Nat) : Int :=
  signedValue v + if signLimb v = maxLimb ∧ v.length < n then (radix : Int) ^ v.length else 0

/-- The sign limb B-2 of a result below the range of its length (R105). -/
def badSign : Limb := 999999999999999998#64

/-- The most negative value of length n, [0, ..., 0, B-1] (R108). -/
def mostNegative (n : Nat) : List Limb := List.replicate (n - 1) 0#64 ++ [maxLimb]

/-- A signed decimal string: the sign and the digits, most-significant first (R17, R18 "canonical decimal string"). -/
structure Decimal where
  negative : Bool
  digits   : List (Fin 10)
  deriving DecidableEq, Repr

/-- No leading zero except the string "0", and at least one digit (R16, R18). -/
def canonicalDigits (ds : List (Fin 10)) : Bool :=
  match ds with
  | [] => false
  | d :: rest => rest.isEmpty || !(d == 0)

/-- The value of digits, least-significant first. -/
def digitsValue : List (Fin 10) → Nat
  | [] => 0
  | d :: ds => d.val + 10 * digitsValue ds

/-- Chunks of at most 18 digits as limbs, of digits given least-significant first; `fuel` bounds the number of chunks. -/
def chunkLimbs : Nat → List (Fin 10) → List Limb
  | 0, _ => []
  | _ + 1, [] => []
  | fuel + 1, d :: ds =>
    BitVec.ofNat 64 (digitsValue ((d :: ds).take magnitude)) :: chunkLimbs fuel ((d :: ds).drop magnitude)

/-- parse(s) of a digit string, most-significant digit first; a string that is not canonical is outside its contract
(R16). -/
def parse (ds : List (Fin 10)) : Option (List Limb) :=
  if canonicalDigits ds then some (chunkLimbs ds.length ds.reverse ++ [0#64]) else none

/-- The last `k` decimal digits of a number, least-significant first. -/
def lowDigits : Nat → Nat → List (Fin 10)
  | 0, _ => []
  | k + 1, n => Fin.ofNat 10 n :: lowDigits k (n / 10)

/-- A limb as exactly 18 digits, most-significant first (R17). -/
def paddedDigits (x : Limb) : List (Fin 10) := (lowDigits magnitude x.toNat).reverse

/-- Digits without leading zeros, keeping one digit (R17). -/
def dropLeadingZeros (ds : List (Fin 10)) : List (Fin 10) :=
  match ds.dropWhile (· == 0) with
  | [] => [0]
  | ds' => ds'

/-- The digits of a non-negative limb list: high magnitude limbs equal to 0 are dropped, keeping one, the highest left
is printed without leading zeros and every lower one in 18 digits (R17). -/
def magnitudeDigits (v : List Limb) : List (Fin 10) :=
  match v.dropLast.reverse.dropWhile (· == 0#64) with
  | [] => [0]
  | hi :: lows => dropLeadingZeros (paddedDigits hi) ++ lows.flatMap paddedDigits

/-- render(v) (R17). A list whose sign limb is neither 0 nor B-1 has none (R17, I14). -/
def render (v : List Limb) : Option Decimal :=
  if signLimb v = 0#64 then some ⟨false, magnitudeDigits v⟩
  else if signLimb v = maxLimb then some ⟨true, magnitudeDigits (negCore v).r⟩
  else none

end Sys2Proof.Machine
end

