-- ==== Sys2Proof/Safety.lean ====
section
/-! DEFINITION. The terms claims are stated in: what a register holds as an operand, what a committed and an errored
command leave, which events are a reset, and the invariant every step keeps. -/

namespace Sys2Proof.Machine

/-- Register Vk holds the well-formed limb list `v` (R13, R25). -/
def State.holds (s : State) (k : Fin 16) (v : List Limb) : Prop :=
  s.value? k = some v ∧ WF s.config.maxLimbs v = true

/-- Register Vk fails the operand check (R123): the limb words of its range are written, and its length is outside
[2, MAXLIMBS] or some limb is out of range. -/
def State.malformed (s : State) (k : Fin 16) : Prop :=
  (∀ i, i < (s.vreg k).len.toNat → i < s.config.maxLimbs → LimbStore.word? (s.vreg k).limbs i ≠ none) ∧
    (lengthOk s.config.maxLimbs (s.vreg k).len.toNat = false ∨ ∃ v, s.value? k = some v ∧ WF s.config.maxLimbs v = false)

/-- A limb word of Vk's range 0 to LEN-1 was not written since reset (R38, R123). -/
def State.unwritten (s : State) (k : Fin 16) : Prop :=
  ∃ i, i < (s.vreg k).len.toNat ∧ i < s.config.maxLimbs ∧ LimbStore.word? (s.vreg k).limbs i = none

/-- The core outputs of the operation `i` on the lists its sources hold: Add, Negate or Subtract of them (R122). -/
def State.computes (s : State) (i : Instr) (c : CoreOut) : Prop :=
  match i with
  | .add _ ra rb => ∃ a b, s.holds ra a ∧ s.holds rb b ∧ c = addCore a b
  | .neg _ ra => ∃ a, s.holds ra a ∧ c = negCore a
  | .sub _ ra rb => ∃ a b, s.holds ra a ∧ s.holds rb b ∧ c = subCore a b

/-- What no command changes: the parameters, CMD_last, the reset input, what the outside world does next, what the host
got back, and the sticky bits (R26, R30, R31). -/
structure KeepsRest (s t : State) : Prop where
  config    : t.config = s.config
  cmdLast   : t.cmdLast = s.cmdLast
  reset     : t.resetAsserted = s.resetAsserted
  schedule  : t.schedule = s.schedule
  responses : t.responses = s.responses
  ovr       : t.status.ovr = s.status.ovr
  wbusy     : t.status.wbusy = s.status.wbusy

/-- `t` is `s` after a command whose core outputs are `c` committed to V[rd] (R126) and completed (R127). -/
structure Committed (rd : Fin 16) (c : CoreOut) (s t : State) : Prop where
  value   : t.value? rd = some c.r
  len     : (t.vreg rd).len.toNat = c.r.length
  above   : ∀ i, c.r.length ≤ i → LimbStore.word? (t.vreg rd).limbs i = LimbStore.word? (s.vreg rd).limbs i
  others  : ∀ k, k ≠ rd → t.vreg k = s.vreg k
  err     : t.status.err = .noError
  cout    : t.status.cout = c.cout
  grow    : t.status.grow = c.grow
  neg     : t.status.neg = true ↔ signLimb c.r = maxLimb
  zero    : t.status.zero = true ↔ ∀ x ∈ c.r, x = 0#64
  signbad : t.status.signbad = true ↔ signLimb c.r ≠ 0#64 ∧ signLimb c.r ≠ maxLimb
  zfill   : t.status.zfill = c.zfill
  idle    : t.busy = false
  rest    : KeepsRest s t

/-- `t` is `s` after a command that raised `e` (R150): no register is written and the result flags are as they were. -/
structure Errored (e : ErrCode) (s t : State) : Prop where
  registers : t.vregs = s.vregs
  err       : t.status.err = e
  flags     : t.status = { s.status with err := e }
  idle      : t.busy = false
  rest      : KeepsRest s t

/-- The next thing that happens is a reset: the input is asserted, or released after being asserted (R170). -/
def State.resetNext (s : State) : Prop :=
  ∃ rest, s.schedule = .assertReset :: rest ∨ (s.schedule = .releaseReset :: rest ∧ s.resetAsserted = true)

/-- The next thing that happens is the pending command's execution step (R121): it falls here, or nothing else is left
to happen (R144). -/
def State.executesNext (s : State) : Prop :=
  s.busy = true ∧ (s.schedule = [] ∨ ∃ rest, s.schedule = .execute :: rest)

/-- The next thing that happens is a host write of `w` at window offset `off`. -/
def State.writesNext (s : State) (off : Nat) (w : Word64) : Prop :=
  ∃ rest, s.schedule = .bus (.write (s.config.base + off) 8 w) :: rest

/-- The slots of the address map for a given MAXLIMBS (R53): a LIMB word has an index below it. -/
def Slot.listed (maxLimbs : Nat) : Slot → Prop
  | .limb _ i => i < maxLimbs
  | _ => True

/-- The machine runs `n` steps from `s` without a fault and is then in `t`. -/
def RunsTo (n : Nat) (s t : State) : Prop := core.run n s = .next t

/-- A LEN or LIMB word (R142). -/
def Slot.isRegisterWord : Slot → Prop
  | .len _    => True
  | .limb _ _ => True
  | _         => False

/-- ERR and the result flags are all 0 (R29). -/
def Status.clear (st : Status) : Prop := st = st.cleared

/-- A good state. Every register's limb words are in canonical form and lie below MAXLIMBS (R21, R53); while a command
is in flight ERR and the result flags are 0 (R29, R143); an error leaves the result flags 0 (R29); NEG and SIGNBAD are
never both 1 (R127), nor is ZERO with either; STAGE holds at most MAXLIMBS + 2 limbs (R35); and while reset is asserted
the SMA's state is the reset state (R170). -/
structure State.Inv (s : State) : Prop where
  limbs_canonical : ∀ k, (s.vreg k).limbs.wf
  limbs_in_range  : ∀ k, ∀ p ∈ (s.vreg k).limbs, p.1 < s.config.maxLimbs
  busy_clear      : s.busy = true → s.status.clear
  error_clear     : s.status.err ≠ .noError → { s.status with err := .noError }.clear
  sign_flags      : ¬ (s.status.neg = true ∧ s.status.signbad = true)
  zero_flag       : s.status.zero = true → s.status.neg = false ∧ s.status.signbad = false
  stage_size      : s.stage.length ≤ s.config.maxLimbs + 2
  in_reset        : s.resetAsserted = true → s = resetTo true s

/-- Two states that differ at most in limb words at and above the lengths of their registers (R24), in STAGE, and in
what lies outside the SMA. -/
structure SameBelowLengths (s s' : State) : Prop where
  config : s'.config = s.config
  status : s'.status = s.status
  len    : ∀ k, (s'.vreg k).len = (s.vreg k).len
  limbs  : ∀ k i, i < (s.vreg k).len.toNat →
    LimbStore.word? (s'.vreg k).limbs i = LimbStore.word? (s.vreg k).limbs i

end Sys2Proof.Machine

namespace Sys2Proof

/-- The destination register of an operation (R70). -/
def Instr.dest : Instr → Fin 16
  | .add rd _ _ => rd
  | .neg rd _   => rd
  | .sub rd _ _ => rd

/-- The first source register of an operation (R70). -/
def Instr.sourceA : Instr → Fin 16
  | .add _ ra _ => ra
  | .neg _ ra   => ra
  | .sub _ ra _ => ra

end Sys2Proof
end

