-- ==== Sys2Proof/Certificates/Slice0/Obligations.lean ====
section
/-! DEFINITION. The statements for the provers, each about every state or every operand its hypotheses admit. -/

open Sys2Proof Sys2Proof.Machine

/-! ## Encoding -/

/-- Every operation decodes from its own word, every register at every value (R70, R72, R73). -/
def Obligations.DecodeOfEncode : Prop :=
  ∀ i : Instr, decode (encode i) = .ok i

/-- A word that decodes to an operation is that operation's only word: no bit of it is ignored (R70, R76). -/
def Obligations.EncodeOfDecode : Prop :=
  ∀ (w : Word64) (i : Instr), decode w = .ok i → encode i = w

/-- R72, R75, R76: the outcome of decoding, on every word, and the codes of the two errors. The fields are read here as
quotients and remainders of the word's number. -/
def Obligations.DecodeOutcomeOnEveryWord : Prop :=
  (decodeErrCode .illegalOpcode).code = 1#4 ∧ (decodeErrCode .reservedField).code = 2#4 ∧
  ∀ w : Word64,
    let opc := w.toNat % 256
    let rd := Fin.ofNat 16 (w.toNat / 2 ^ 8)
    let ra := Fin.ofNat 16 (w.toNat / 2 ^ 12)
    let rb := Fin.ofNat 16 (w.toNat / 2 ^ 16)
    let rsv := w.toNat / 2 ^ 20
    (¬ (opc = 1 ∨ opc = 2 ∨ opc = 3) → decode w = .error .illegalOpcode) ∧
    ((opc = 1 ∨ opc = 2 ∨ opc = 3) ∧ rsv ≠ 0 → decode w = .error .reservedField) ∧
    (opc = 2 ∧ rsv = 0 ∧ rb ≠ 0 → decode w = .error .reservedField) ∧
    (opc = 1 ∧ rsv = 0 → decode w = .ok (.add rd ra rb)) ∧
    (opc = 2 ∧ rsv = 0 ∧ rb = 0 → decode w = .ok (.neg rd ra)) ∧
    (opc = 3 ∧ rsv = 0 → decode w = .ok (.sub rd ra rb))

/-- The worked encodings of R78 decode to the operations they stand for. -/
def Obligations.WorkedEncodingsDecode : Prop :=
  decode 0x0000000000010201#64 = .ok (.add 2 0 1) ∧
  decode 0x0000000000002302#64 = .ok (.neg 3 2) ∧
  decode 0x0000000000010403#64 = .ok (.sub 4 0 1) ∧
  decode 0x0000000000000001#64 = .ok (.add 0 0 0)

/-! ## The command cycle -/

/-- A CMD write while idle is accepted, whatever the word (R120), and one while BUSY = 1 is dropped with OVR set (R141); in
both cases the whole next state. That the host's dropped write completes like any other (the response `done`) is the
model's choice, log entry 13. -/
def Obligations.CmdWriteAcceptedOnlyWhenIdle : Prop :=
  ∀ (s : State) (w : Word64) (rest : List Event),
    s.resetAsserted = false →
    s.schedule = .bus (.write (s.config.base + 0x0010) 8 w) :: rest →
    (s.busy = false → step s = .next
      { s with
        schedule := rest
        responses := .done :: s.responses
        pend := some w
        cmdLast := w
        status :=
          { err := .noError, cout := false, grow := false, neg := false, zero := false, signbad := false
            zfill := false, ovr := s.status.ovr, wbusy := s.status.wbusy } }) ∧
    (s.busy = true → step s = .next
      { s with
        schedule := rest
        responses := .done :: s.responses
        status := { s.status with ovr := true } })

/-- A step runs the decoded operation: when the pending word decodes to `i` and its execution step is next (it falls
here, or nothing is left outside), the step is exec of `i`, the event used up. -/
def Obligations.StepRunsDecodedCommand : Prop :=
  ∀ (s : State) (w : Word64) (i : Instr), s.pend = some w → decode w = .ok i →
    (s.schedule = [] → step s = exec i s) ∧
    (∀ rest, s.schedule = .execute :: rest → step s = exec i { s with schedule := rest })

/-- R152, R153: a pending word that is no operation ends with its error code and changes nothing else. -/
def Obligations.UndecodableWordRaisesItsCode : Prop :=
  ∀ (s : State) (w : Word64) (rest : List Event), s.pend = some w → s.schedule = .execute :: rest →
    (decode w = .error .illegalOpcode → step s = .next
      { s with schedule := rest, pend := none, status := { s.status with err := .illegalOpcode } }) ∧
    (decode w = .error .reservedField → step s = .next
      { s with schedule := rest, pend := none, status := { s.status with err := .reservedField } })

/-- While no command is pending the execution step is not enabled (R121): where it would fall only the schedule is used
up, and at the end of a run (R180) the state stays. -/
def Obligations.IdleMachineStays : Prop :=
  (∀ s : State, s.ended → step s = .next s) ∧
  ∀ (s : State) (rest : List Event), s.busy = false → s.schedule = .execute :: rest →
    step s = .next { s with schedule := rest }

/-! ## The operations: completion, result and frame -/

/-- ADD completes on well-formed operands whose result fits (R130): the result is committed to V[RD] alone (R126), with
the STATUS fields of R127, whichever registers the fields name. -/
def Obligations.AddCommitsItsSum : Prop :=
  ∀ (s : State) (rd ra rb : Fin 16) (a b : List Limb), s.holds ra a → s.holds rb b →
    (addCore a b).r.length ≤ s.config.maxLimbs →
    ∃ t, exec (.add rd ra rb) s = .next t ∧ Committed rd (addCore a b) s t

/-- NEG completes on a well-formed operand whose result fits (R131, R126, R127). -/
def Obligations.NegCommitsItsNegation : Prop :=
  ∀ (s : State) (rd ra : Fin 16) (a : List Limb), s.holds ra a →
    (negCore a).r.length ≤ s.config.maxLimbs →
    ∃ t, exec (.neg rd ra) s = .next t ∧ Committed rd (negCore a) s t

/-- SUB completes on well-formed operands whose result fits, the negated subtrahend never checked on its own (R132, R126,
R127). -/
def Obligations.SubCommitsItsDifference : Prop :=
  ∀ (s : State) (rd ra rb : Fin 16) (a b : List Limb), s.holds ra a → s.holds rb b →
    (subCore a b).r.length ≤ s.config.maxLimbs →
    ∃ t, exec (.sub rd ra rb) s = .next t ∧ Committed rd (subCore a b) s t

/-- ADD's result with its value, where the operation is exact: two operands of one length whose sum the length plus one
limb of room can hold (R104, R130). The hypotheses speak of the operands alone. -/
def Obligations.AddOfEqualLengthsIsExact : Prop :=
  ∀ (s : State) (rd ra rb : Fin 16) (a b : List Limb), s.holds ra a → s.holds rb b →
    a.length = b.length → a.length < s.config.maxLimbs →
    -((radix : Int) ^ (a.length - 1)) ≤ signedValue a + signedValue b →
    ∃ t r, exec (.add rd ra rb) s = .next t ∧ t.holds rd r ∧
      signedValue r = signedValue a + signedValue b ∧
      t.status.err = .noError ∧ t.status.zfill = false ∧ t.status.signbad = false ∧
      (t.status.neg = true ↔ signedValue a + signedValue b < 0) ∧
      (t.status.zero = true ↔ signedValue a + signedValue b = 0)

/-- NEG's result with its value and flags (R131): negation is exact on every well-formed operand with room to grow. -/
def Obligations.NegIsExactWithItsFlags : Prop :=
  ∀ (s : State) (rd ra : Fin 16) (a : List Limb), s.holds ra a → a.length < s.config.maxLimbs →
    ∃ t r, exec (.neg rd ra) s = .next t ∧ t.holds rd r ∧ signedValue r = -signedValue a ∧
      t.status.err = .noError ∧
      (t.status.cout = true ↔ ∀ x ∈ a, x = 0#64) ∧
      (t.status.grow = true ↔ a = mostNegative a.length) ∧
      t.status.zfill = false ∧ t.status.signbad = false ∧
      (t.status.neg = true ↔ 0 < signedValue a) ∧
      (t.status.zero = true ↔ ∀ x ∈ a, x = 0#64)

/-- SUB's result with its value and flags, on non-negative operands whose subtrahend is not the shorter (R111, R113). -/
def Obligations.SubOfNonNegativeIsExact : Prop :=
  ∀ (s : State) (rd ra rb : Fin 16) (a b : List Limb), s.holds ra a → s.holds rb b →
    isNegative a = false → isNegative b = false → a.length ≤ b.length →
    ∃ t r, exec (.sub rd ra rb) s = .next t ∧ t.holds rd r ∧
      signedValue r = signedValue a - signedValue b ∧
      t.status.err = .noError ∧ t.status.zfill = false ∧ t.status.signbad = false ∧
      (t.status.neg = true ↔ signedValue a < signedValue b)

/-- R26: no command changes a register other than its destination; nor, if it goes on, anything but STATUS's ERR and
result flags, BUSY, PEND and STAGE. -/
def Obligations.CommandChangesOnlyItsDestination : Prop :=
  ∀ (i : Instr) (s t : State), exec i s = .next t →
    (∀ k, k ≠ i.dest → t.vreg k = s.vreg k) ∧ KeepsRest s t ∧ t.busy = false

/-- R150, R159: a command that goes on either committed, with ERR = 0, the whole result of its operation on the lists its
sources held, or raised an error and wrote no register and no result flag. -/
def Obligations.CommandIsAllOrNothing : Prop :=
  ∀ (i : Instr) (s t : State), exec i s = .next t →
    (∃ c, s.computes i c ∧ Committed i.dest c s t) ∨ (∃ e, e ≠ ErrCode.noError ∧ Errored e s t)

/-- R126: the destination does not matter to the result, so an aliased destination gives what a distinct one gives. -/
def Obligations.AliasedDestinationGivesSameResult : Prop :=
  ∀ (s t t' : State) (rd rd' ra rb : Fin 16),
    (exec (.add rd ra rb) s = .next t → exec (.add rd' ra rb) s = .next t' →
      t.status = t'.status ∧ (t.status.err = .noError → t.value? rd = t'.value? rd')) ∧
    (exec (.neg rd ra) s = .next t → exec (.neg rd' ra) s = .next t' →
      t.status = t'.status ∧ (t.status.err = .noError → t.value? rd = t'.value? rd')) ∧
    (exec (.sub rd ra rb) s = .next t → exec (.sub rd' ra rb) s = .next t' →
      t.status = t'.status ∧ (t.status.err = .noError → t.value? rd = t'.value? rd'))

/-- R24: limb words at and above a register's length take no part in a command. Two states that differ at most there
answer alike: the same fault, or next states with the same STATUS and the same register values. -/
def Obligations.StaleLimbsTakeNoPart : Prop :=
  ∀ (i : Instr) (s s' : State), SameBelowLengths s s' →
    match exec i s, exec i s' with
    | .next t, .next t' => t'.status = t.status ∧ ∀ k, (t'.vreg k).len = (t.vreg k).len ∧ t'.value? k = t.value? k
    | .fault f, .fault f' => f = f'
    | _, _ => False

/-! ## Errors -/

/-- R123: the operand checks of every operation. RA is checked first and RB only if RA is well-formed; a malformed
operand raises its code and changes nothing else; an operand with a limb word not written since reset in its range 0 to
LEN-1 faults, whatever its length and its other words (R38; the range stops at the MAXLIMBS words a register has, log
entry 4). -/
def Obligations.OperandChecksInOrder : Prop :=
  ∀ (s : State) (rd ra rb : Fin 16),
    let errA := Host.Outcome.next (ρ := Refusal) (φ := Fault)
      { s with pend := none, status := { s.status with err := .malformedA } }
    let errB := Host.Outcome.next (ρ := Refusal) (φ := Fault)
      { s with pend := none, status := { s.status with err := .malformedB } }
    (s.malformed ra →
      exec (.add rd ra rb) s = errA ∧ exec (.neg rd ra) s = errA ∧ exec (.sub rd ra rb) s = errA) ∧
    (s.unwritten ra →
      exec (.add rd ra rb) s = .fault .unwrittenOperand ∧ exec (.neg rd ra) s = .fault .unwrittenOperand ∧
      exec (.sub rd ra rb) s = .fault .unwrittenOperand) ∧
    (∀ a, s.holds ra a → s.malformed rb →
      exec (.add rd ra rb) s = errB ∧ exec (.sub rd ra rb) s = errB) ∧
    (∀ a, s.holds ra a → s.unwritten rb →
      exec (.add rd ra rb) s = .fault .unwrittenOperand ∧ exec (.sub rd ra rb) s = .fault .unwrittenOperand)

/-- R155: a result longer than MAXLIMBS raises CAPACITY (5); by R124 nothing is committed. -/
def Obligations.OverlongResultRaisesCapacity : Prop :=
  ErrCode.capacity.code = 5#4 ∧
  ∀ (s : State) (rd ra rb : Fin 16) (a b : List Limb), s.holds ra a →
    (s.config.maxLimbs < (negCore a).r.length →
      ∃ t, exec (.neg rd ra) s = .next t ∧ Errored .capacity s t) ∧
    (s.holds rb b → s.config.maxLimbs < (addCore a b).r.length →
      ∃ t, exec (.add rd ra rb) s = .next t ∧ Errored .capacity s t) ∧
    (s.holds rb b → s.config.maxLimbs < (subCore a b).r.length →
      ∃ t, exec (.sub rd ra rb) s = .next t ∧ Errored .capacity s t)

/-- R124: NEG runs out of capacity only on the most negative value of MAXLIMBS limbs (R131), ADD only when an operand
already has MAXLIMBS limbs and the sum grows. -/
def Obligations.CapacityOnlyAtFullLength : Prop :=
  ∀ (s t : State) (rd ra rb : Fin 16) (a b : List Limb), s.holds ra a → t.status.err = .capacity →
    (exec (.neg rd ra) s = .next t → a = mostNegative s.config.maxLimbs) ∧
    (s.holds rb b → exec (.add rd ra rb) s = .next t →
      max a.length b.length = s.config.maxLimbs ∧ (addCore a b).grow = true)

/-- R158: the code an executed word leaves in ERR is the first that applies. -/
def Obligations.FirstApplicableErrorIsReported : Prop :=
  ∀ (w : Word64) (s t : State), execWord w s = .next t →
    let c := Command.ofWord w
    (c.legalOpcode = false → t.status.err = .illegalOpcode) ∧
    (c.legalOpcode = true → c.reservedClear = false ∨ c.negRbClear = false → t.status.err = .reservedField) ∧
    (c.wellFormed = true → s.malformed (regIndex c.ra) → t.status.err = .malformedA) ∧
    (∀ a, c.wellFormed = true → c.opc ≠ 0x02#8 → s.holds (regIndex c.ra) a → s.malformed (regIndex c.rb) →
      t.status.err = .malformedB) ∧
    (∀ a, c.wellFormed = true → c.opc = 0x02#8 → s.holds (regIndex c.ra) a →
      t.status.err = if s.config.maxLimbs < (negCore a).r.length then .capacity else .noError) ∧
    (∀ a b, c.wellFormed = true → c.opc = 0x01#8 → s.holds (regIndex c.ra) a → s.holds (regIndex c.rb) b →
      t.status.err = if s.config.maxLimbs < (addCore a b).r.length then .capacity else .noError) ∧
    (∀ a b, c.wellFormed = true → c.opc = 0x03#8 → s.holds (regIndex c.ra) a → s.holds (regIndex c.rb) b →
      t.status.err = if s.config.maxLimbs < (subCore a b).r.length then .capacity else .noError)

/-! ## The bus window -/

/-- The address map (R53): at an aligned offset the map gives a word exactly when that word is listed and its offset is
this one, so no two words share an offset and no word has two. -/
def Obligations.AddressMapIsExact : Prop :=
  ∀ (c : Config) (off : Nat) (slot : Slot), off % 8 = 0 →
    (slotAt c.maxLimbs off = some slot ↔ slot.listed c.maxLimbs ∧ slot.offset = off)

/-- Inside the window (R51, R52, R54), an access that is not 8 bytes wide, one that is not aligned, and one to an offset
no mapped word has, fault. (Under which of the three names an access with two defects faults is the model's, log
entry 6.) -/
def Obligations.BadBusAccessFaults : Prop :=
  ∀ (s : State) (a : BusAccess) (rest : List Event), s.resetAsserted = false → s.schedule = .bus a :: rest →
    s.config.base ≤ a.addr → a.addr < s.config.base + 0x01800000 →
    (a.width ≠ 8 → step s = .fault .busWidth) ∧
    (a.width = 8 → (a.addr - s.config.base) % 8 ≠ 0 → step s = .fault .busMisaligned) ∧
    (a.width = 8 → (a.addr - s.config.base) % 8 = 0 →
      (∀ slot : Slot, slot.listed s.config.maxLimbs → slot.offset ≠ a.addr - s.config.base) →
      step s = .fault .busUnmapped)

/-- An access while reset is asserted faults (R170, R175, I3), and so does one outside the window, which is not the SMA's
(R50; the fault is the model's own, log entry 6). -/
def Obligations.ForeignOrResetAccessFaults : Prop :=
  ∀ (s : State) (a : BusAccess) (rest : List Event), s.schedule = .bus a :: rest →
    (s.resetAsserted = true → step s = .fault .accessInReset) ∧
    (s.resetAsserted = false → a.addr < s.config.base ∨ s.config.base + 0x01800000 ≤ a.addr →
      step s = .fault .outsideWindow)

/-- A read of a mapped word returns the word and changes nothing else, BUSY or not (R59, R143); a read of a limb word not
written since reset faults (R38). What STATUS, CMD, LEN and LIMB words read as, whether the host, a commit or a
completion put it there (R61): the STATUS word, CMD_last, the length, the limb word; so a register whose value is `v`
reads as `v`'s length and limbs. -/
def Obligations.ReadHasNoSideEffect : Prop :=
  ∀ (s : State) (slot : Slot) (rest : List Event), s.resetAsserted = false → slot.listed s.config.maxLimbs →
    s.schedule = .bus (.read (s.config.base + slot.offset) 8) :: rest →
    (∀ w, readSlot s slot = some w →
      step s = .next { s with schedule := rest, responses := .data w :: s.responses }) ∧
    (readSlot s slot = none → step s = .fault .unwrittenRead) ∧
    (readSlot s slot = none ↔ ∃ k i, slot = .limb k i ∧ LimbStore.word? (s.vreg k).limbs i = none) ∧
    readSlot s .status = some s.statusWord ∧ readSlot s .cmd = some s.cmdLast ∧
    (∀ k, readSlot s (.len k) = some (BitVec.ofNat 64 (s.vreg k).len.toNat)) ∧
    (∀ k i, readSlot s (.limb k i) = LimbStore.word? (s.vreg k).limbs i) ∧
    (∀ k v, s.value? k = some v → readSlot s (.len k) = some (BitVec.ofNat 64 v.length) ∧
      ∀ i < v.length, readSlot s (.limb k i) = v[i]?)

/-- R32, R33: the ID and RADIX words, and writes to them, which change nothing. -/
def Obligations.IdentificationRegistersAreConstant : Prop :=
  ∀ (s : State) (rest : List Event), s.resetAsserted = false →
    (s.schedule = .bus (.read (s.config.base + 0x0000) 8) :: rest →
      ∃ w : Word64, step s = .next { s with schedule := rest, responses := .data w :: s.responses } ∧
        w.toNat % 2 ^ 8 = 18 ∧ w.toNat / 2 ^ 8 % 2 ^ 8 = 16 ∧ w.toNat / 2 ^ 16 % 2 ^ 16 = s.config.maxLimbs ∧
        w.toNat / 2 ^ 32 % 2 ^ 16 = 64 ∧ w.toNat / 2 ^ 48 = 1) ∧
    (s.schedule = .bus (.read (s.config.base + 0x0008) 8) :: rest →
      step s = .next { s with schedule := rest, responses := .data 0x0DE0B6B3A7640000#64 :: s.responses }) ∧
    (∀ w, s.schedule = .bus (.write (s.config.base + 0x0000) 8 w) :: rest ∨
        s.schedule = .bus (.write (s.config.base + 0x0008) 8 w) :: rest →
      step s = .next { s with schedule := rest, responses := .done :: s.responses })

/-- The bits of the STATUS word a host reads (R27): every field at its place, every reserved bit 0; and the error codes
(R151). -/
def Obligations.StatusWordLayout : Prop :=
  (ErrCode.noError.code = 0#4 ∧ ErrCode.illegalOpcode.code = 1#4 ∧ ErrCode.reservedField.code = 2#4 ∧
    ErrCode.malformedA.code = 3#4 ∧ ErrCode.malformedB.code = 4#4 ∧ ErrCode.capacity.code = 5#4) ∧
  ∀ s : State, readSlot s .status = some s.statusWord ∧
    s.statusWord.getLsbD 0 = s.busy ∧ s.statusWord.extractLsb' 1 3 = 0#3 ∧
    s.statusWord.extractLsb' 4 4 = s.status.err.code ∧
    s.statusWord.getLsbD 8 = s.status.cout ∧ s.statusWord.getLsbD 9 = s.status.grow ∧
    s.statusWord.getLsbD 10 = s.status.neg ∧ s.statusWord.getLsbD 11 = s.status.zero ∧
    s.statusWord.getLsbD 12 = s.status.signbad ∧ s.statusWord.getLsbD 13 = s.status.zfill ∧
    s.statusWord.extractLsb' 14 2 = 0#2 ∧
    s.statusWord.getLsbD 16 = s.status.ovr ∧ s.statusWord.getLsbD 17 = s.status.wbusy ∧
    s.statusWord.extractLsb' 18 46 = 0#46

/-- A STATUS write clears OVR and WBUSY where the word has a 1 and changes nothing else, BUSY or not (R30, R55). -/
def Obligations.StatusWriteClearsStickyBits : Prop :=
  ∀ (s : State) (w : Word64) (rest : List Event), s.resetAsserted = false →
    s.schedule = .bus (.write (s.config.base + 0x0018) 8 w) :: rest →
    step s = .next
      { s with
        schedule := rest
        responses := .done :: s.responses
        status := { s.status with
          ovr := if w.getLsbD 16 then false else s.status.ovr
          wbusy := if w.getLsbD 17 then false else s.status.wbusy } }

/-- A LEN or LIMB write while BUSY = 1 is dropped, whichever register it names, and sets WBUSY (R142). That the dropped
write completes like any other (the response `done`) is the model's choice, log entry 13. -/
def Obligations.RegisterWriteDroppedWhileBusy : Prop :=
  ∀ (s : State) (slot : Slot) (w : Word64) (rest : List Event), s.resetAsserted = false →
    slot.isRegisterWord → slot.listed s.config.maxLimbs → s.busy = true →
    s.schedule = .bus (.write (s.config.base + slot.offset) 8 w) :: rest →
    step s = .next
      { s with
        schedule := rest
        responses := .done :: s.responses
        status := { s.status with wbusy := true } }

/-- A LEN or LIMB write while idle stores the word, a LEN word's bits [15:0] only, with no check (R22, R23, R55); every
other mapped word reads as before. -/
def Obligations.RegisterWriteReadsBackWhileIdle : Prop :=
  ∀ (s : State) (slot : Slot) (w : Word64) (rest : List Event), s.resetAsserted = false →
    slot.isRegisterWord → slot.listed s.config.maxLimbs → s.busy = false →
    s.schedule = .bus (.write (s.config.base + slot.offset) 8 w) :: rest →
    ∃ t, step s = .next t ∧
      (∀ k, slot = .len k → readSlot t slot = some (w &&& 0xFFFF#64)) ∧
      (∀ k i, slot = .limb k i → readSlot t slot = some w) ∧
      (∀ slot', slot' ≠ slot → readSlot t slot' = readSlot s slot') ∧
      t.config = s.config ∧ t.status = s.status ∧ t.pend = s.pend ∧ t.cmdLast = s.cmdLast ∧ t.stage = s.stage ∧
      t.resetAsserted = s.resetAsserted ∧ t.schedule = rest ∧ t.responses = .done :: s.responses

/-- A STATUS read while BUSY = 1, in a good state, returns BUSY = 1, ERR = 0, every result flag 0 and the sticky bits
(R143). -/
def Obligations.BusyStatusReadShowsNoFlags : Prop :=
  ∀ (s : State) (rest : List Event), s.Inv → s.busy = true →
    s.schedule = .bus (.read (s.config.base + 0x0018) 8) :: rest →
    step s = .next
      { s with
        schedule := rest
        responses := .data (BitVec.ofNat 64
          (1 + 2 ^ 16 * s.status.ovr.toNat + 2 ^ 17 * s.status.wbusy.toNat)) :: s.responses }

/-! ## Reset -/

/-- R37: the state after reset, for every MAXLIMBS and BASE. Every LEN and STATUS is 0, CMD reads 0, no command is
pending, no limb word is written, ID and RADIX read their constants, and a command on any register ends with
MALFORMED_A. -/
def Obligations.ResetLeavesTheResetValues : Prop :=
  (State.reset = State.resetWith Config.implementation) ∧
  ∀ c : Config,
    let s := State.resetWith c
    (∀ k, readSlot s (.len k) = some 0#64 ∧ ∀ i, readSlot s (.limb k i) = none) ∧
    readSlot s .status = some 0#64 ∧ readSlot s .cmd = some 0#64 ∧ s.pend = none ∧
    readSlot s .id = some (BitVec.ofNat 64 (0x0001004000001012 + 2 ^ 16 * c.maxLimbs)) ∧
    readSlot s .radix = some 0x0DE0B6B3A7640000#64 ∧
    ∀ i : Instr, exec i s = .next { s with status := { s.status with err := .malformedA } }

/-- Asserting reset, and releasing it, give every piece of state its reset value and abandon an in-flight command with no
error recorded (R170). What STAGE holds is not said here: the spec leaves it open (R37). -/
def Obligations.ResetInputResets : Prop :=
  ∀ (s : State) (rest : List Event),
    (s.schedule = .assertReset :: rest → ∃ t, step s = .next t ∧ t.resetAsserted = true ∧
      t.vregs = (State.resetWith s.config).vregs ∧ t.statusWord = 0#64 ∧ t.cmdLast = 0#64 ∧ t.busy = false ∧
      t.config = s.config ∧ t.schedule = rest ∧ t.responses = s.responses) ∧
    (s.schedule = .releaseReset :: rest → s.resetAsserted = true → ∃ t, step s = .next t ∧ t.resetAsserted = false ∧
      t.vregs = (State.resetWith s.config).vregs ∧ t.statusWord = 0#64 ∧ t.cmdLast = 0#64 ∧ t.busy = false ∧
      t.config = s.config ∧ t.schedule = rest ∧ t.responses = s.responses)

/-! ## Rules about the whole machine -/

/-- Every step keeps a state good (R21, R29, R35, R127, R143, R170). That STAGE is empty in reset is the model's choice (log
entry 5). -/
def Obligations.StepKeepsGoodState : Prop :=
  ∀ s t : State, s.Inv → step s = .next t → t.Inv

/-- The state after reset is good, for every MAXLIMBS and BASE; its empty STAGE is the model's choice (log entry 5). -/
def Obligations.ResetStateIsGood : Prop :=
  State.reset.Inv ∧ ∀ c : Config, (State.resetWith c).Inv

/-- The parameters never change, and a register's LEN or limb words change only when the pending command executes, an
idle LEN or LIMB write lands, or the machine is reset (R5, R24, R26, R142, R170). -/
def Obligations.RegistersChangeOnlyAsStated : Prop :=
  ∀ s t : State, step s = .next t →
    t.config = s.config ∧
    (t.vregs ≠ s.vregs → s.executesNext ∨ s.resetNext ∨
      (s.busy = false ∧ ∃ (slot : Slot) (w : Word64), slot.isRegisterWord ∧ slot.listed s.config.maxLimbs ∧
        s.writesNext slot.offset w))

/-- ERR and the result flags (R29): acceptance clears them; a command of a good state that ends with an error leaves the
flags 0; and but for an acceptance, an execution and a reset they stay, host writes included. -/
def Obligations.ErrorAndFlagsPersist : Prop :=
  ∀ s t : State, step s = .next t →
    (s.busy = false → (∃ w, s.writesNext 0x0010 w) → t.status.clear) ∧
    (s.Inv → s.executesNext → t.status.err ≠ .noError → { t.status with err := .noError }.clear) ∧
    (¬ s.executesNext → ¬ s.resetNext → ¬ (s.busy = false ∧ ∃ w, s.writesNext 0x0010 w) →
      { t.status with ovr := s.status.ovr, wbusy := s.status.wbusy } = s.status)

/-- R30: OVR and WBUSY are set by a CMD write, and by a LEN or LIMB write, while BUSY = 1, and cleared by a host write of
1 to the bit and by reset; nothing else changes them. -/
def Obligations.StickyBitsChangeOnlyAsStated : Prop :=
  ∀ s t : State, step s = .next t →
    (s.busy = true → (∃ w, s.writesNext 0x0010 w) → t.status.ovr = true) ∧
    (s.busy = true → (∃ (slot : Slot) (w : Word64), slot.isRegisterWord ∧ slot.listed s.config.maxLimbs ∧
      s.writesNext slot.offset w) → t.status.wbusy = true) ∧
    (∀ w : Word64, s.writesNext 0x0018 w →
      (w.getLsbD 16 = true → t.status.ovr = false) ∧ (w.getLsbD 16 = false → t.status.ovr = s.status.ovr) ∧
      (w.getLsbD 17 = true → t.status.wbusy = false) ∧ (w.getLsbD 17 = false → t.status.wbusy = s.status.wbusy)) ∧
    (s.resetNext → t.status.ovr = false ∧ t.status.wbusy = false) ∧
    (s.status.ovr = true → t.status.ovr = false →
      s.resetNext ∨ ∃ w : Word64, s.writesNext 0x0018 w ∧ w.getLsbD 16 = true) ∧
    (s.status.wbusy = true → t.status.wbusy = false →
      s.resetNext ∨ ∃ w : Word64, s.writesNext 0x0018 w ∧ w.getLsbD 17 = true) ∧
    (s.status.ovr = false → t.status.ovr = true → s.busy = true ∧ ∃ w, s.writesNext 0x0010 w) ∧
    (s.status.wbusy = false → t.status.wbusy = true → s.busy = true ∧
      ∃ (slot : Slot) (w : Word64), slot.isRegisterWord ∧ slot.listed s.config.maxLimbs ∧ s.writesNext slot.offset w)

/-- R31: a read of CMD returns CMD_last, which a submitted word becomes when it is accepted, reset makes 0, and nothing
else, a dropped write included, changes. -/
def Obligations.CmdReadsTheLastAcceptedWord : Prop :=
  ∀ s t : State, step s = .next t →
    readSlot s .cmd = some s.cmdLast ∧
    (∀ w, s.writesNext 0x0010 w → s.busy = false → t.cmdLast = w ∧ t.pend = some w) ∧
    (s.resetNext → t.cmdLast = 0#64) ∧
    (t.cmdLast ≠ s.cmdLast → s.resetNext ∨ (s.busy = false ∧ s.writesNext 0x0010 t.cmdLast))

/-- R28: BUSY goes from 0 to 1 exactly when a CMD write is accepted, and from 1 to 0 exactly when the pending command
executes and completes, or at reset; no host write clears it, and while it stays 1 the pending word stays. -/
def Obligations.BusyFollowsTheCommand : Prop :=
  ∀ s t : State, step s = .next t →
    (s.busy = false → (t.busy = true ↔ ∃ w, s.writesNext 0x0010 w)) ∧
    (∀ w, s.busy = false → s.writesNext 0x0010 w → t.pend = some w) ∧
    (s.busy = true → (t.busy = false ↔ s.executesNext ∨ s.resetNext)) ∧
    (s.busy = true → t.busy = true → t.pend = s.pend)

/-- No host access disturbs an in-flight command: whatever the bus delivers while BUSY = 1, the registers, the pending
word, CMD_last, STAGE, ERR and the result flags stay (R62, R174). -/
def Obligations.AccessesLeaveInFlightCommandAlone : Prop :=
  ∀ (s t : State) (a : BusAccess) (rest : List Event), s.busy = true → s.schedule = .bus a :: rest →
    step s = .next t →
    t.vregs = s.vregs ∧ t.pend = s.pend ∧ t.cmdLast = s.cmdLast ∧ t.stage = s.stage ∧
    t.status = { s.status with ovr := t.status.ovr, wbusy := t.status.wbusy }

/-- Every accepted command executes, after at most as many other steps as there are events from outside, on the register
values it was accepted with (R62, R121, R144; the fairness is the schedule's being finite, log entry 2). The run neither
faults nor is reset. -/
def Obligations.PendingCommandExecutes : Prop :=
  ∀ (s : State) (w : Word64), s.pend = some w →
    (∀ e ∈ s.schedule, e ≠ .assertReset ∧ e ≠ .releaseReset) →
    (∀ n ≤ s.schedule.length + 1, ∃ t, RunsTo n s t) →
    ∃ n ≤ s.schedule.length, ∃ t u : State,
      RunsTo n s t ∧ t.executesNext ∧ t.pend = some w ∧ t.vregs = s.vregs ∧
      RunsTo (n + 1) s u ∧ execWord w { t with schedule := t.schedule.tail } = .next u ∧ u.busy = false

/-! ## The arithmetic laws -/

/-- R12: a well-formed list of n limbs stands for exactly the integers from -B^(n-1) to B^(n-1) - 1, one list for each,
and a copy of the sign limb appended changes no value. -/
def Obligations.SignedValueLaw : Prop :=
  (∀ (m : Nat) (a : List Limb), WF m a = true →
    -((radix : Int) ^ (a.length - 1)) ≤ signedValue a ∧ signedValue a ≤ (radix : Int) ^ (a.length - 1) - 1 ∧
    signedValue a =
      unsignedValue a.dropLast - (if isNegative a = true then (radix : Int) ^ (a.length - 1) else 0) ∧
    signedValue (a ++ [signLimb a]) = signedValue a) ∧
  (∀ (m : Nat) (a b : List Limb), WF m a = true → WF m b = true → a.length = b.length →
    signedValue a = signedValue b → a = b) ∧
  (∀ (n : Nat) (x : Int), lenMin ≤ n → -((radix : Int) ^ (n - 1)) ≤ x → x ≤ (radix : Int) ^ (n - 1) - 1 →
    ∃ a, a.length = n ∧ WF n a = true ∧ signedValue a = x)

/-- R100, R101: the length of a sum, and the unsigned identity, the operands zero-filled and the last carry at position
N. -/
def Obligations.SumLengthAndUnsignedIdentity : Prop :=
  ∀ (m : Nat) (a b : List Limb), WF m a = true → WF m b = true →
    let n := max a.length b.length
    (addCore a b).r.length = n + (addCore a b).grow.toNat ∧
      unsignedValue ((addCore a b).r.take n) + (addCore a b).cout.toNat * radix ^ n =
        unsignedValue a + unsignedValue b ∧
      ((addCore a b).cout = true ↔ radix ^ n ≤ unsignedValue a + unsignedValue b)

/-- R102: what an operand contributes under zero-fill. -/
def Obligations.EffectiveOperandValue : Prop :=
  ∀ (m : Nat) (a b : List Limb), WF m a = true → WF m b = true →
    let n := max a.length b.length
    (unsignedValue ((addCore a b).r.take n) : Int) % (radix : Int) ^ n =
        (effectiveValue a n + effectiveValue b n) % (radix : Int) ^ n ∧
      (isNegative a = false ∨ a.length = n → effectiveValue a n = signedValue a) ∧
      (isNegative a = true → a.length < n → effectiveValue a n = unsignedValue a ∧
        (radix - 1) * radix ^ (a.length - 1) ≤ unsignedValue a ∧ unsignedValue a ≤ radix ^ a.length - 1)

/-- R103: the value of a sum, unless its sign limb is B-2. -/
def Obligations.SumValueLaw : Prop :=
  ∀ (m : Nat) (a b : List Limb), WF m a = true → WF m b = true →
    let n := max a.length b.length
    let r := (addCore a b).r
    let e := effectiveValue a n + effectiveValue b n
    signLimb r ≠ badSign →
      (∀ x ∈ r, x.toNat < radix) ∧ (signLimb r = 0#64 ∨ signLimb r = maxLimb) ∧ signedValue r = e ∧
      -((radix : Int) ^ (n - 1)) ≤ e ∧ e ≤ 2 * (radix : Int) ^ (n - 1) - 1 ∧
      ((radix : Int) ^ (n - 1) ≤ e → r.length = n + 1 ∧ r[n - 1]? = some 1#64 ∧ r[n]? = some 0#64)

/-- R104: exactly when a sum is exact, and the error where it is not. -/
def Obligations.SumIsExactUnlessFlagged : Prop :=
  ∀ (m : Nat) (a b : List Limb), WF m a = true → WF m b = true →
    let n := max a.length b.length
    let out := addCore a b
    (signedValue out.r = signedValue a + signedValue b ↔ out.zfill = false ∧ signLimb out.r ≠ badSign) ∧
    (isNegative a = true → a.length < n →
      out.zfill = true ∧ signedValue out.r = signedValue a + signedValue b + (radix : Int) ^ a.length) ∧
    (isNegative b = true → b.length < n →
      out.zfill = true ∧ signedValue out.r = signedValue a + signedValue b + (radix : Int) ^ b.length) ∧
    (out.zfill = true → (isNegative a = true ∧ a.length < n) ∨ (isNegative b = true ∧ b.length < n))

/-- R105: exactly when a sum's sign limb is B-2, what it then holds, and that no other invalid sign limb arises. -/
def Obligations.SignLimbOverflowLaw : Prop :=
  ∀ (m : Nat) (a b : List Limb), WF m a = true → WF m b = true →
    let n := max a.length b.length
    let out := addCore a b
    (signLimb out.r = badSign ↔ isNegative a = true ∧ isNegative b = true ∧ a.length = n ∧ b.length = n ∧
      signedValue a + signedValue b < -((radix : Int) ^ (n - 1))) ∧
    (signLimb out.r = badSign → out.grow = false ∧ out.r.length = n ∧ out.cout = true ∧
      (unsignedValue out.r : Int) = signedValue a + signedValue b + (radix : Int) ^ n) ∧
    (signLimb out.r = 0#64 ∨ signLimb out.r = maxLimb ∨ signLimb out.r = badSign)

/-- R106: exactly when a sum grows; the effective operands are then both non-negative, so no negative operand has full
length. -/
def Obligations.GrowthLaw : Prop :=
  ∀ (m : Nat) (a b : List Limb), WF m a = true → WF m b = true →
    let n := max a.length b.length
    let out := addCore a b
    (out.grow = true ↔ signLimb out.r ≠ badSign ∧
      (radix : Int) ^ (n - 1) ≤ effectiveValue a n + effectiveValue b n) ∧
    (out.grow = true → 0 ≤ effectiveValue a n ∧ 0 ≤ effectiveValue b n ∧
      ¬ (isNegative a = true ∧ a.length = n) ∧ ¬ (isNegative b = true ∧ b.length = n))

/-- R107: Add is symmetric, indicators included, and [0, 0] is its identity. -/
def Obligations.AddIsCommutativeWithIdentity : Prop :=
  (∀ a b : List Limb, addCore a b = addCore b a) ∧
  ∀ (m : Nat) (a : List Limb), WF m a = true → addCore a [0#64, 0#64] = ⟨a, false, false, false⟩

/-- R108: negation is exact, and its other outputs. -/
def Obligations.NegateLaw : Prop :=
  ∀ (m : Nat) (a : List Limb), WF m a = true →
    let out := negCore a
    signedValue out.r = -signedValue a ∧ (signLimb out.r = 0#64 ∨ signLimb out.r = maxLimb) ∧ out.zfill = false ∧
    (out.grow = true ↔ a = mostNegative a.length) ∧
    (a = mostNegative a.length → signedValue a = -((radix : Int) ^ (a.length - 1)) ∧
      out.r = List.replicate (a.length - 1) 0#64 ++ [1#64, 0#64]) ∧
    (a ≠ mostNegative a.length → out.r.length = a.length) ∧
    (out.cout = true ↔ ∀ x ∈ a, x = 0#64) ∧ ((∀ x ∈ a, x = 0#64) → out.r = a)

/-- R109: negating twice gives the operand back limb for limb, but for the most negative value, which comes back one
sign limb longer. -/
def Obligations.DoubleNegationLaw : Prop :=
  ∀ (m : Nat) (a : List Limb), WF m a = true →
    (a ≠ mostNegative a.length → (negCore (negCore a).r).r = a) ∧
    (a = mostNegative a.length →
      (negCore (negCore a).r).r = List.replicate (a.length - 1) 0#64 ++ [maxLimb, maxLimb] ∧
      signedValue (negCore (negCore a).r).r = signedValue a)

/-- R110: Subtract is Add of an exact negation, which is well-formed but for being up to one limb longer (so the laws of
Add apply with it), and exact unless the final Add is flagged. -/
def Obligations.SubtractLaw : Prop :=
  ∀ (m : Nat) (a b : List Limb), WF m a = true → WF m b = true →
    let nb := (negCore b).r
    subCore a b = addCore a nb ∧ WF (m + 1) nb = true ∧ signedValue nb = -signedValue b ∧
    ((subCore a b).zfill = false → signLimb (subCore a b).r ≠ badSign →
      signedValue (subCore a b).r = signedValue a - signedValue b)

/-- R111: Subtract of non-negative operands, and the rule's example, 10^18 - 1. -/
def Obligations.SubtractOfNonNegativeLaw : Prop :=
  (∀ (m : Nat) (a b : List Limb), WF m a = true → WF m b = true → isNegative a = false → isNegative b = false →
    let nb := (negCore b).r
    let out := subCore a b
    nb.length = b.length ∧ (isNegative nb = true ↔ 0 < signedValue b) ∧
    (out.zfill = true ↔ 0 < signedValue b ∧ b.length < a.length) ∧
    (out.zfill = true → signedValue out.r = signedValue a - signedValue b + (radix : Int) ^ b.length) ∧
    (out.zfill = false → signedValue out.r = signedValue a - signedValue b) ∧
    signLimb out.r ≠ badSign) ∧
  (subCore [0#64, 1#64, 0#64] [1#64, 0#64]).r = [maxLimb, 0#64, 1#64, 0#64]

/-- R112: subtracting a value from itself. -/
def Obligations.SelfSubtractionLaw : Prop :=
  ∀ (m : Nat) (a : List Limb), WF m a = true →
    (a ≠ mostNegative a.length → (subCore a a).r = List.replicate a.length 0#64 ∧
      ((subCore a a).cout = true ↔ ¬ ∀ x ∈ a, x = 0#64)) ∧
    (a = mostNegative a.length → (negCore a).r = List.replicate (a.length - 1) 0#64 ++ [1#64, 0#64] ∧
      (subCore a a).r = List.replicate a.length 0#64 ++ [1#64, 0#64] ∧
      signedValue (subCore a a).r = (radix : Int) ^ a.length ∧
      (subCore a a).zfill = true ∧ (subCore a a).grow = true)

/-- R113: the sign of a difference of non-negative operands whose subtrahend is not the shorter; and a difference that
keeps a zero magnitude limb. -/
def Obligations.DifferenceSignLaw : Prop :=
  (∀ (m : Nat) (a b : List Limb), WF m a = true → WF m b = true → isNegative a = false → isNegative b = false →
    a.length ≤ b.length → (isNegative (subCore a b).r = true ↔ signedValue a < signedValue b)) ∧
  (subCore [1#64, 1#64, 0#64] [0#64, 1#64, 0#64]).r = [1#64, 0#64, 0#64]

/-- A committed result is well-formed for later commands exactly when SIGNBAD is 0 (R173). -/
def Obligations.CommittedResultIsWellFormedUnlessSignbad : Prop :=
  ∀ (i : Instr) (s t : State), exec i s = .next t → t.status.err = .noError →
    ((∃ r, t.holds i.dest r) ↔ t.status.signbad = false)

/-- The commands compute sums, negations and differences of the signed values their registers hold, exactly, whenever
the command ends with ERR, ZFILL and SIGNBAD all 0 (R104, R108, R110, R127). -/
def Obligations.UnflaggedCommandsAreExact : Prop :=
  ∀ (i : Instr) (s t : State), exec i s = .next t →
    t.status.err = .noError → t.status.zfill = false → t.status.signbad = false →
    match i with
    | .add rd ra rb => ∃ a b r, s.holds ra a ∧ s.holds rb b ∧ t.holds rd r ∧
        signedValue r = signedValue a + signedValue b
    | .neg rd ra => ∃ a r, s.holds ra a ∧ t.holds rd r ∧ signedValue r = -signedValue a
    | .sub rd ra rb => ∃ a b r, s.holds ra a ∧ s.holds rb b ∧ t.holds rd r ∧
        signedValue r = signedValue a - signedValue b

/-! ## The reference codec -/

/-- parse gives a well-formed non-negative list with one limb for every 18 digits and the sign limb, whose value the
digits write (R16), and render gives the digits back (R17). -/
def Obligations.RenderOfParse : Prop :=
  ∀ ds : List (Fin 10), canonicalDigits ds = true →
    ∃ v, parse ds = some v ∧ v.length = (ds.length + 17) / 18 + 1 ∧ WF v.length v = true ∧ isNegative v = false ∧
      signedValue v = (digitsValue ds.reverse : Int) ∧ render v = some ⟨false, ds⟩
end

