-- ==== Sys2Proof/Laws/Arith.lean ====
section
/-! SUPPORT. The limb adder cell and the Add loop: ranges, lengths and the exact value each computes. -/

namespace Sys2Proof.Machine

@[simp] theorem maxLimb_toNat : maxLimb.toNat = radix - 1 := rfl

@[simp] theorem badSign_toNat : badSign.toNat = radix - 2 := rfl

theorem radix_pos : 0 < radix := by decide

/-- The cell on limbs below B (R90): the limb is below B, and limb and carry are the exact sum. -/
theorem cell_spec {x y : Limb} (hx : x.toNat < radix) (hy : y.toNat < radix) (c : Bool) :
    (cell x y c).1.toNat < radix ∧
      (cell x y c).1.toNat + radix * (cell x y c).2.toNat = x.toNat + y.toNat + c.toNat := by
  have hc : c.toNat ≤ 1 := Bool.toNat_le c
  simp only [radix] at *
  by_cases h : x.toNat + y.toNat + c.toNat ≥ 1000000000000000000
  · simp only [cell, radix, h, if_true, BitVec.toNat_ofNat, Bool.toNat_true]; omega
  · simp only [cell, radix, h, if_false, BitVec.toNat_ofNat, Bool.toNat_false]; omega

theorem cell_comm (x y : Limb) (c : Bool) : cell x y c = cell y x c := by
  simp [cell, Nat.add_comm x.toNat y.toNat]

/-- A position that zero-fill reads is below B where the operand's limbs are. -/
theorem limbAt_lt {v : List Limb} (h : ∀ x ∈ v, x.toNat < radix) (i : Nat) : (limbAt v i).toNat < radix := by
  unfold limbAt
  by_cases hi : i < v.length
  · rw [List.getD_eq_getElem _ _ hi]; exact h _ (List.getElem_mem hi)
  · rw [List.getD_eq_default _ _ (by omega)]; exact radix_pos

/-- The `n` limbs the loop reads of an operand from position `i` on. -/
def filled (v : List Limb) : Nat → Nat → List Limb
  | _, 0 => []
  | i, n + 1 => limbAt v i :: filled v (i + 1) n

/-- Zero-fill does not change the unsigned value (R101). -/
theorem unsignedValue_filled (v : List Limb) (n i : Nat) (h : v.length ≤ i + n) :
    unsignedValue (filled v i n) = unsignedValue (v.drop i) := by
  induction n generalizing i with
  | zero => simp [filled, List.drop_eq_nil_of_le (show v.length ≤ i by omega)]
  | succ n ih =>
    by_cases hi : i < v.length
    · rw [List.drop_eq_getElem_cons hi]
      simp [filled, unsignedValue, ih (i + 1) (by omega), limbAt, hi]
    · have hd : v.drop i = [] := List.drop_eq_nil_of_le (by omega)
      have hd' : v.drop (i + 1) = [] := List.drop_eq_nil_of_le (by omega)
      simp [filled, unsignedValue, ih (i + 1) (by omega), limbAt, hd, hd', List.getElem?_eq_none (show v.length ≤ i by omega)]

theorem addLoop_length (a b : List Limb) (n i : Nat) (c : Bool) : (addLoop a b n i c).1.length = n := by
  induction n generalizing i c with
  | zero => rfl
  | succ n ih => simp [addLoop, ih]

theorem addLoop_comm (a b : List Limb) (n i : Nat) (c : Bool) : addLoop a b n i c = addLoop b a n i c := by
  induction n generalizing i c with
  | zero => rfl
  | succ n ih => simp [addLoop, cell_comm (limbAt a i), ih]

/-- The loop on operands whose limbs are below B: its limbs are below B, and limbs and last carry are the exact sum. -/
theorem addLoop_spec {a b : List Limb} (ha : ∀ x ∈ a, x.toNat < radix) (hb : ∀ x ∈ b, x.toNat < radix)
    (n i : Nat) (c : Bool) :
    (∀ x ∈ (addLoop a b n i c).1, x.toNat < radix) ∧
      unsignedValue (addLoop a b n i c).1 + radix ^ n * (addLoop a b n i c).2.toNat =
        unsignedValue (filled a i n) + unsignedValue (filled b i n) + c.toNat := by
  induction n generalizing i c with
  | zero => simp [addLoop, filled, unsignedValue]
  | succ n ih =>
    obtain ⟨hlt, hsum⟩ := cell_spec (limbAt_lt ha i) (limbAt_lt hb i) c
    obtain ⟨ihlt, ihsum⟩ := ih (i + 1) (cell (limbAt a i) (limbAt b i) c).2
    refine ⟨by simpa [addLoop] using ⟨hlt, ihlt⟩, ?_⟩
    simp only [addLoop, filled, unsignedValue, pow_succ]
    linear_combination hsum + radix * ihsum

/-- The value of an operand whose limbs are below B lies below B^n. -/
theorem unsignedValue_lt {v : List Limb} (h : ∀ x ∈ v, x.toNat < radix) : unsignedValue v < radix ^ v.length := by
  induction v with
  | nil => simp [unsignedValue]
  | cons x v ih =>
    have hx := h x (by simp)
    have hv := ih fun y hy => h y (by simp [hy])
    simp only [unsignedValue, List.length_cons, pow_succ]
    nlinarith [radix_pos]

theorem unsignedValue_append (u v : List Limb) :
    unsignedValue (u ++ v) = unsignedValue u + radix ^ u.length * unsignedValue v := by
  induction u with
  | nil => simp [unsignedValue]
  | cons x u ih =>
    simp only [List.cons_append, unsignedValue, ih, List.length_cons, pow_succ]
    ring

/-- A result has at most one limb more than the longer operand (R94: growth happens at most once). -/
theorem addCore_length_le (a b : List Limb) : (addCore a b).r.length ≤ max a.length b.length + 1 := by
  simp only [addCore]
  split <;> simp [addLoop_length]

theorem negCore_length_le {a : List Limb} (h : lenMin ≤ a.length) : (negCore a).r.length ≤ a.length + 1 := by
  have := addCore_length_le (comp a) one
  simp only [negCore, comp, List.length_map, one, List.length_cons, List.length_nil, lenMin] at *
  omega

end Sys2Proof.Machine
end

