-- ==== Sys2Proof/Laws/Bus.lean ====
section
/-! SUPPORT. The words of the identification and status registers as numbers, and what each kind of write changes. -/

namespace Sys2Proof.Machine

/-- The ID word as a number (R32). -/
theorem idWord_toNat (c : Config) :
    (idWord c).toNat = 18 + 2 ^ 8 * 16 + 2 ^ 16 * c.maxLimbs + 2 ^ 32 * 64 + 2 ^ 48 := by
  have hm : c.maxLimbs < 2 ^ 16 := by
    have := c.spare.isLt
    simp only [Config.maxLimbs]; omega
  have h1 : (BitVec.ofNat 16 c.maxLimbs).toNat = c.maxLimbs := by rw [BitVec.toNat_ofNat]; omega
  have h2 : (1#16 ++ 64#16 ++ BitVec.ofNat 16 c.maxLimbs).toNat = 65600 * 2 ^ 16 + c.maxLimbs := by
    rw [BitVec.toNat_append, h1, ← Nat.shiftLeft_add_eq_or_of_lt hm, Nat.shiftLeft_eq]
    rfl
  have h3 : (1#16 ++ 64#16 ++ BitVec.ofNat 16 c.maxLimbs ++ 16#8).toNat =
      (65600 * 2 ^ 16 + c.maxLimbs) * 2 ^ 8 + 16 := by
    rw [BitVec.toNat_append, h2, ← Nat.shiftLeft_add_eq_or_of_lt (by decide), Nat.shiftLeft_eq]
    rfl
  unfold idWord
  rw [BitVec.toNat_append, h3, ← Nat.shiftLeft_add_eq_or_of_lt (by decide), Nat.shiftLeft_eq,
    show (BitVec.ofNat 8 magnitude).toNat = 18 from rfl]
  omega

theorem statusWord_resetWith (c : Config) : (State.resetWith c).statusWord = 0#64 := by
  simp [State.statusWord, State.resetWith, Status.reset, ErrCode.code, State.busy]

theorem statusWord_resetTo (b : Bool) (s : State) : (resetTo b s).statusWord = 0#64 := statusWord_resetWith s.config

/-- What a write leaves unchanged, whichever mapped word it reaches. -/
theorem writeSlot_frame (s : State) (w : Word64) (slot : Slot) :
    (writeSlot s w slot).config = s.config ∧ (writeSlot s w slot).stage = s.stage ∧
    (writeSlot s w slot).resetAsserted = s.resetAsserted ∧ (writeSlot s w slot).schedule = s.schedule ∧
    (writeSlot s w slot).responses = s.responses := by
  cases slot <;> refine ⟨?_, ?_, ?_, ?_, ?_⟩ <;> unfold writeSlot <;> (try dsimp only) <;> (try split) <;> rfl

/-- While BUSY = 1 a write changes nothing but the sticky bits (R141, R142, R30). -/
theorem writeSlot_busy {s : State} (h : s.busy = true) (w : Word64) (slot : Slot) :
    ∃ ovr wbusy, writeSlot s w slot = { s with status := { s.status with ovr := ovr, wbusy := wbusy } } := by
  cases slot <;> simp only [writeSlot] <;> (try rw [if_pos h]) <;> exact ⟨_, _, rfl⟩

end Sys2Proof.Machine
end

