-- ==== Sys2Proof/Laws/Decode.lean ====
section
/-! SUPPORT. The decoder against the well-formedness checks of the format, and fields read back from an assembled word. -/

namespace Sys2Proof

/-- The fields of a word assembled from fields. -/
theorem ofWord_toWord (c : Command) : Command.ofWord c.toWord = c := by
  obtain ⟨opc, rd, ra, rb, rsv⟩ := c
  simp only [Command.ofWord, Command.toWord, Command.mk.injEq]
  refine ⟨?_, ?_, ?_, ?_, ?_⟩ <;>
    · apply BitVec.eq_of_getLsbD_eq
      intro i hi
      simp only [BitVec.getLsbD_extractLsb', BitVec.getLsbD_append, hi, decide_true, Bool.true_and]
      repeat' split
      all_goals first | omega | (congr 1; omega)

/-- A word is an operation exactly when its fields are well-formed (R72, R75, R76). -/
theorem decode_instr_isSome (w : Word64) : (decode w).instr?.isSome = (Command.ofWord w).wellFormed := by
  simp only [decode, Command.wellFormed, Command.legalOpcode, Command.reservedClear, Command.negRbClear]
  generalize Command.ofWord w = c
  by_cases h1 : c.opc = 1#8 <;> by_cases h2 : c.opc = 2#8 <;> by_cases h3 : c.opc = 3#8 <;>
    by_cases h4 : c.rsv = 0#44 <;> by_cases h5 : c.rb = 0#4 <;> simp_all [Decoded.instr?]

end Sys2Proof
end

