-- ==== Sys2Proof/Laws/LimbStore.lean ====
section
/-! SUPPORT. The limb store: reading after writing, the canonical form every write keeps, and reading and writing runs
of words. -/

namespace Sys2Proof.Machine

theorem LimbStore.word?_put_same (m : LimbStore) (i : Nat) (x : Limb) :
    LimbStore.word? (LimbStore.put m i x) i = some x := by
  induction m with
  | nil => simp [LimbStore.put, LimbStore.word?]
  | cons p m ih =>
    obtain ⟨j, y⟩ := p
    simp only [LimbStore.put]
    split
    · simp [LimbStore.word?]
    · split
      · simp [LimbStore.word?]
      · rename_i h
        simp [LimbStore.word?, ih, Ne.symm h]

theorem LimbStore.word?_put_ne (m : LimbStore) {i j : Nat} (x : Limb) (h : j ≠ i) :
    LimbStore.word? (LimbStore.put m i x) j = LimbStore.word? m j := by
  induction m with
  | nil => simp [LimbStore.put, LimbStore.word?, Ne.symm h]
  | cons p m ih =>
    obtain ⟨k, y⟩ := p
    simp only [LimbStore.put]
    split
    · simp [LimbStore.word?, Ne.symm h]
    · split
      · subst_vars
        simp [LimbStore.word?, Ne.symm h]
      · simp [LimbStore.word?, ih]

@[simp] theorem LimbStore.word?_put (m : LimbStore) (i j : Nat) (x : Limb) :
    LimbStore.word? (LimbStore.put m i x) j = if j = i then some x else LimbStore.word? m j := by
  split
  · subst_vars; exact LimbStore.word?_put_same m _ x
  · exact LimbStore.word?_put_ne m x ‹_›

/-- The indexes after a write: the one written and those there before. -/
theorem LimbStore.mem_put {m : LimbStore} {i : Nat} {x : Limb} {p : Nat × Limb}
    (h : p ∈ LimbStore.put m i x) : p = (i, x) ∨ p ∈ m := by
  induction m with
  | nil => simpa [LimbStore.put] using h
  | cons q m ih =>
    obtain ⟨j, y⟩ := q
    simp only [LimbStore.put] at h
    split at h
    · simpa using h
    · split at h
      · rcases List.mem_cons.1 h with h | h
        · exact .inl h
        · exact .inr (List.mem_cons_of_mem _ h)
      · rcases List.mem_cons.1 h with h | h
        · exact .inr (h ▸ List.mem_cons_self)
        · exact (ih h).imp_right (List.mem_cons_of_mem _)

theorem LimbStore.wf_nil : LimbStore.wf [] := List.Pairwise.nil

/-- A write keeps the canonical form. -/
theorem LimbStore.wf_put {m : LimbStore} (h : m.wf) (i : Nat) (x : Limb) : (LimbStore.put m i x).wf := by
  induction m with
  | nil => simp [LimbStore.put, LimbStore.wf]
  | cons q m ih =>
    obtain ⟨j, y⟩ := q
    obtain ⟨hj, hm⟩ : (∀ p ∈ m, j < p.1) ∧ LimbStore.wf m := by
      simpa [LimbStore.wf, List.pairwise_cons] using h
    simp only [LimbStore.put]
    split
    · rename_i hij
      have hi : ∀ p ∈ m, i < p.1 := fun p hp => Nat.lt_trans hij (hj p hp)
      simp [LimbStore.wf, List.pairwise_cons] at hm ⊢
      exact ⟨⟨hij, fun a b hab => hi (a, b) hab⟩, fun a b hab => hj (a, b) hab, hm⟩
    · split
      · subst_vars
        simpa [LimbStore.wf, List.pairwise_cons] using h
      · rename_i h1 h2
        have ih' := ih hm
        simp only [LimbStore.wf, List.map_cons, List.pairwise_cons, List.mem_map] at ih' ⊢
        refine ⟨?_, ih'⟩
        rintro a ⟨p, hp, rfl⟩
        rcases LimbStore.mem_put hp with rfl | hp
        · simp only; omega
        · exact hj p hp

theorem LimbStore.wf_putAll {m : LimbStore} (h : m.wf) (i : Nat) (xs : List Limb) : (LimbStore.putAll m i xs).wf := by
  induction xs generalizing m i with
  | nil => exact h
  | cons x xs ih => exact ih (LimbStore.wf_put h i x) _

theorem LimbStore.mem_putAll {m : LimbStore} {i : Nat} {xs : List Limb} {p : Nat × Limb}
    (h : p ∈ LimbStore.putAll m i xs) : (i ≤ p.1 ∧ p.1 < i + xs.length) ∨ p ∈ m := by
  induction xs generalizing m i with
  | nil => exact .inr h
  | cons x xs ih =>
    rcases ih h with ⟨h1, h2⟩ | h
    · left; simp only [List.length_cons]; omega
    · rcases LimbStore.mem_put h with rfl | h
      · left; simp
      · exact .inr h

/-- What a word reads after a run of writes from index `i` on. -/
theorem LimbStore.word?_putAll (m : LimbStore) (i : Nat) (xs : List Limb) (j : Nat) :
    LimbStore.word? (LimbStore.putAll m i xs) j =
      if i ≤ j ∧ j < i + xs.length then xs[j - i]? else LimbStore.word? m j := by
  induction xs generalizing m i with
  | nil => simp [LimbStore.putAll, show ¬ (i ≤ j ∧ j < i) by omega]
  | cons x xs ih =>
    rw [LimbStore.putAll, ih, LimbStore.word?_put]
    by_cases h : i = j
    · subst h; simp
    · by_cases h1 : i + 1 ≤ j ∧ j < i + 1 + xs.length
      · have h2 : i ≤ j ∧ j < i + (xs.length + 1) := by omega
        simp only [h1, List.length_cons, h2, and_self, if_true]
        rw [show j - i = (j - (i + 1)) + 1 by omega, List.getElem?_cons_succ]
      · have h2 : ¬ (i ≤ j ∧ j < i + (xs.length + 1)) := by omega
        rw [if_neg h1, if_neg (Ne.symm h)]
        simp only [List.length_cons]
        rw [if_neg h2]

theorem LimbStore.words?_length {m : LimbStore} {i n : Nat} {v : List Limb}
    (h : LimbStore.words? m i n = some v) : v.length = n := by
  induction n generalizing i v with
  | zero => simp [LimbStore.words?] at h; simp [← h]
  | succ n ih =>
    simp only [LimbStore.words?] at h
    split at h
    · rename_i hx hxs
      cases h
      simp [ih hxs]
    · cases h

/-- A run of words reads as the list `v` exactly when each word does. -/
theorem LimbStore.words?_eq_some_iff {m : LimbStore} {i n : Nat} {v : List Limb} :
    LimbStore.words? m i n = some v ↔ v.length = n ∧ ∀ j < n, LimbStore.word? m (i + j) = v[j]? := by
  induction n generalizing i v with
  | zero => cases v <;> simp [LimbStore.words?]
  | succ n ih =>
    simp only [LimbStore.words?]
    constructor
    · intro h
      split at h
      · rename_i x xs hx hxs
        cases h
        obtain ⟨hl, hw⟩ := ih.1 hxs
        refine ⟨by simp [hl], fun j hj => ?_⟩
        cases j with
        | zero => simpa using hx
        | succ j => simpa [Nat.add_assoc, Nat.add_comm 1] using hw j (by omega)
      · cases h
    · rintro ⟨hl, hw⟩
      cases v with
      | nil => simp at hl
      | cons x xs =>
        have hx : LimbStore.word? m i = some x := by simpa using hw 0 (by omega)
        have hxs : LimbStore.words? m (i + 1) n = some xs := by
          refine ih.2 ⟨by simpa using hl, fun j hj => ?_⟩
          simpa [Nat.add_assoc, Nat.add_comm 1] using hw (j + 1) (by omega)
        simp [hx, hxs]

/-- A run of words has no value exactly when one of them was not written. -/
theorem LimbStore.words?_eq_none_iff {m : LimbStore} {i n : Nat} :
    LimbStore.words? m i n = none ↔ ∃ j < n, LimbStore.word? m (i + j) = none := by
  induction n generalizing i with
  | zero => simp [LimbStore.words?]
  | succ n ih =>
    have step : LimbStore.words? m i (n + 1) = none ↔
        LimbStore.word? m i = none ∨ LimbStore.words? m (i + 1) n = none := by
      simp only [LimbStore.words?]
      cases LimbStore.word? m i <;> cases LimbStore.words? m (i + 1) n <;> simp
    rw [step, ih]
    constructor
    · rintro (h | ⟨j, hj, h⟩)
      · exact ⟨0, by omega, h⟩
      · exact ⟨j + 1, by omega, by rw [show i + (j + 1) = i + 1 + j by omega]; exact h⟩
    · rintro ⟨j, hj, h⟩
      cases j with
      | zero => exact .inl h
      | succ j => exact .inr ⟨j, by omega, by rw [show i + 1 + j = i + (j + 1) by omega]; exact h⟩

/-- Reading back a list just written. -/
theorem LimbStore.words?_putAll (m : LimbStore) (v : List Limb) :
    LimbStore.words? (LimbStore.putAll m 0 v) 0 v.length = some v := by
  refine LimbStore.words?_eq_some_iff.2 ⟨rfl, fun j hj => ?_⟩
  simp [LimbStore.word?_putAll, hj]

/-- Runs of words agree where the words do. -/
theorem LimbStore.words?_congr {m m' : LimbStore} {i n : Nat}
    (h : ∀ j < n, LimbStore.word? m (i + j) = LimbStore.word? m' (i + j)) :
    LimbStore.words? m i n = LimbStore.words? m' i n := by
  induction n generalizing i with
  | zero => rfl
  | succ n ih =>
    have h0 := h 0 (by omega)
    have h1 := ih (i := i + 1) fun j hj => by
      simpa [Nat.add_assoc, Nat.add_comm 1] using h (j + 1) (by omega)
    simp only [Nat.add_zero] at h0
    simp [LimbStore.words?, h0, h1]

/-- An index that is read lies among the entries. -/
theorem LimbStore.mem_of_word? {m : LimbStore} {i : Nat} {x : Limb} (h : LimbStore.word? m i = some x) :
    (i, x) ∈ m := by
  induction m with
  | nil => simp [LimbStore.word?] at h
  | cons p m ih =>
    obtain ⟨j, y⟩ := p
    simp only [LimbStore.word?] at h
    split at h
    · subst_vars; cases h; simp
    · exact List.mem_cons_of_mem _ (ih h)

end Sys2Proof.Machine
end

