-- ==== Sys2Proof/Laws/Operands.lean ====
section
/-! SUPPORT. Well-formed limb lists (R13): the check as a proposition, and such a list as magnitude limbs and a sign limb. -/

namespace Sys2Proof.Machine

theorem lengthOk_iff {m n : Nat} : lengthOk m n = true ↔ 2 ≤ n ∧ n ≤ m := by
  rw [lengthOk, Bool.and_eq_true, decide_eq_true_iff, decide_eq_true_iff]

theorem limbsOk_iff {v : List Limb} :
    limbsOk v = true ↔ (∀ x ∈ v.dropLast, x.toNat < radix) ∧ (signLimb v = 0#64 ∨ signLimb v = maxLimb) := by
  simp [limbsOk]

theorem WF_iff {m : Nat} {v : List Limb} :
    WF m v = true ↔ (2 ≤ v.length ∧ v.length ≤ m) ∧
      (∀ x ∈ v.dropLast, x.toNat < radix) ∧ (signLimb v = 0#64 ∨ signLimb v = maxLimb) := by
  rw [WF, Bool.and_eq_true, lengthOk_iff, limbsOk_iff]

@[simp] theorem signLimb_append (d : List Limb) (x : Limb) : signLimb (d ++ [x]) = x := by
  simp [signLimb]

/-- A well-formed list is magnitude limbs below B followed by the sign limb (R13). -/
theorem WF_split {m : Nat} {v : List Limb} (h : WF m v = true) :
    ∃ (d : List Limb) (x : Limb), v = d ++ [x] ∧ 1 ≤ d.length ∧ (∀ y ∈ d, y.toNat < radix) ∧
      (x = 0#64 ∨ x = maxLimb) := by
  obtain ⟨⟨h2, -⟩, hd, hs⟩ := WF_iff.1 h
  have hne : v ≠ [] := by rintro rfl; simp at h2
  have hv := List.dropLast_concat_getLast hne
  rw [← hv, signLimb_append] at hs
  refine ⟨v.dropLast, v.getLast hne, hv.symm, ?_, hd, hs⟩
  rw [List.length_dropLast]; omega

/-- Every limb of a well-formed list is below B. -/
theorem WF_limb_lt {m : Nat} {v : List Limb} (h : WF m v = true) : ∀ x ∈ v, x.toNat < radix := by
  obtain ⟨d, s, rfl, -, hd, hs⟩ := WF_split h
  intro x hx
  rcases List.mem_append.1 hx with hx | hx
  · exact hd x hx
  · obtain rfl := List.mem_singleton.1 hx
    rcases hs with rfl | rfl <;> decide

end Sys2Proof.Machine
end

