-- ==== Sys2Proof/Laws/State.lean ====
section
/-! SUPPORT. One lemma per field per update of State, and reading a register after an update. -/

namespace Sys2Proof.Machine

section Fields
variable (s : State) (k j : Fin 16) (r : VReg) (v : List Limb) (w : Word64) (e : ErrCode) (b : Bool) (o : Response)

@[simp] theorem setVReg_config : (s.setVReg k r).config = s.config := rfl
@[simp] theorem setVReg_status : (s.setVReg k r).status = s.status := rfl
@[simp] theorem setVReg_pend : (s.setVReg k r).pend = s.pend := rfl
@[simp] theorem setVReg_cmdLast : (s.setVReg k r).cmdLast = s.cmdLast := rfl
@[simp] theorem setVReg_stage : (s.setVReg k r).stage = s.stage := rfl
@[simp] theorem setVReg_resetAsserted : (s.setVReg k r).resetAsserted = s.resetAsserted := rfl
@[simp] theorem setVReg_schedule : (s.setVReg k r).schedule = s.schedule := rfl
@[simp] theorem setVReg_responses : (s.setVReg k r).responses = s.responses := rfl

@[simp] theorem setValue_config : (s.setValue k v).config = s.config := rfl
@[simp] theorem setValue_status : (s.setValue k v).status = s.status := rfl
@[simp] theorem setValue_pend : (s.setValue k v).pend = s.pend := rfl
@[simp] theorem setValue_cmdLast : (s.setValue k v).cmdLast = s.cmdLast := rfl
@[simp] theorem setValue_stage : (s.setValue k v).stage = s.stage := rfl
@[simp] theorem setValue_resetAsserted : (s.setValue k v).resetAsserted = s.resetAsserted := rfl
@[simp] theorem setValue_schedule : (s.setValue k v).schedule = s.schedule := rfl
@[simp] theorem setValue_responses : (s.setValue k v).responses = s.responses := rfl

@[simp] theorem setStage_config : (s.setStage v).config = s.config := rfl
@[simp] theorem setStage_vregs : (s.setStage v).vregs = s.vregs := rfl
@[simp] theorem setStage_vreg : (s.setStage v).vreg k = s.vreg k := rfl
@[simp] theorem setStage_status : (s.setStage v).status = s.status := rfl
@[simp] theorem setStage_pend : (s.setStage v).pend = s.pend := rfl
@[simp] theorem setStage_cmdLast : (s.setStage v).cmdLast = s.cmdLast := rfl
@[simp] theorem setStage_stage : (s.setStage v).stage = v := rfl
@[simp] theorem setStage_resetAsserted : (s.setStage v).resetAsserted = s.resetAsserted := rfl
@[simp] theorem setStage_schedule : (s.setStage v).schedule = s.schedule := rfl
@[simp] theorem setStage_responses : (s.setStage v).responses = s.responses := rfl

@[simp] theorem accept_config : (accept w s).config = s.config := rfl
@[simp] theorem accept_vregs : (accept w s).vregs = s.vregs := rfl
@[simp] theorem accept_vreg : (accept w s).vreg k = s.vreg k := rfl
@[simp] theorem accept_status : (accept w s).status = s.status.cleared := rfl
@[simp] theorem accept_pend : (accept w s).pend = some w := rfl
@[simp] theorem accept_cmdLast : (accept w s).cmdLast = w := rfl
@[simp] theorem accept_stage : (accept w s).stage = s.stage := rfl
@[simp] theorem accept_resetAsserted : (accept w s).resetAsserted = s.resetAsserted := rfl
@[simp] theorem accept_schedule : (accept w s).schedule = s.schedule := rfl
@[simp] theorem accept_responses : (accept w s).responses = s.responses := rfl

@[simp] theorem raise_config : (raise e s).config = s.config := rfl
@[simp] theorem raise_vregs : (raise e s).vregs = s.vregs := rfl
@[simp] theorem raise_vreg : (raise e s).vreg k = s.vreg k := rfl
@[simp] theorem raise_status : (raise e s).status = { s.status with err := e } := rfl
@[simp] theorem raise_pend : (raise e s).pend = none := rfl
@[simp] theorem raise_cmdLast : (raise e s).cmdLast = s.cmdLast := rfl
@[simp] theorem raise_stage : (raise e s).stage = s.stage := rfl
@[simp] theorem raise_resetAsserted : (raise e s).resetAsserted = s.resetAsserted := rfl
@[simp] theorem raise_schedule : (raise e s).schedule = s.schedule := rfl
@[simp] theorem raise_responses : (raise e s).responses = s.responses := rfl

@[simp] theorem respond_config : (respond o s).config = s.config := rfl
@[simp] theorem respond_vregs : (respond o s).vregs = s.vregs := rfl
@[simp] theorem respond_vreg : (respond o s).vreg k = s.vreg k := rfl
@[simp] theorem respond_status : (respond o s).status = s.status := rfl
@[simp] theorem respond_pend : (respond o s).pend = s.pend := rfl
@[simp] theorem respond_cmdLast : (respond o s).cmdLast = s.cmdLast := rfl
@[simp] theorem respond_stage : (respond o s).stage = s.stage := rfl
@[simp] theorem respond_resetAsserted : (respond o s).resetAsserted = s.resetAsserted := rfl
@[simp] theorem respond_schedule : (respond o s).schedule = s.schedule := rfl
@[simp] theorem respond_responses : (respond o s).responses = o :: s.responses := rfl

@[simp] theorem resetTo_config : (resetTo b s).config = s.config := rfl
@[simp] theorem resetTo_status : (resetTo b s).status = Status.reset := rfl
@[simp] theorem resetTo_pend : (resetTo b s).pend = none := rfl
@[simp] theorem resetTo_cmdLast : (resetTo b s).cmdLast = 0#64 := rfl
@[simp] theorem resetTo_stage : (resetTo b s).stage = [] := rfl
@[simp] theorem resetTo_resetAsserted : (resetTo b s).resetAsserted = b := rfl
@[simp] theorem resetTo_schedule : (resetTo b s).schedule = s.schedule := rfl
@[simp] theorem resetTo_responses : (resetTo b s).responses = s.responses := rfl

@[simp] theorem busy_eq : s.busy = s.pend.isSome := rfl

end Fields

/-- Two states with one register file have the same registers. -/
theorem vreg_congr {s t : State} (h : t.vregs = s.vregs) (k : Fin 16) : t.vreg k = s.vreg k := by
  simp [State.vreg, h]

theorem vreg_setVReg_same (s : State) (k : Fin 16) (r : VReg) : (s.setVReg k r).vreg k = r := by
  simp [State.vreg, State.setVReg]

theorem vreg_setVReg_ne (s : State) {k j : Fin 16} (r : VReg) (h : j ≠ k) :
    (s.setVReg k r).vreg j = s.vreg j := by
  have h' : k.val ≠ j.val := fun e => h (Fin.ext e.symm)
  simp [State.vreg, State.setVReg, h']

@[simp] theorem vreg_setVReg (s : State) (k j : Fin 16) (r : VReg) :
    (s.setVReg k r).vreg j = if j = k then r else s.vreg j := by
  split
  · subst_vars; exact vreg_setVReg_same s _ r
  · exact vreg_setVReg_ne s r ‹_›

@[simp] theorem vreg_resetWith (c : Config) (k : Fin 16) : (State.resetWith c).vreg k = VReg.reset := by
  simp [State.vreg, State.resetWith]

@[simp] theorem vreg_resetTo (b : Bool) (s : State) (k : Fin 16) : (resetTo b s).vreg k = VReg.reset :=
  vreg_resetWith s.config k

/-- Register files are equal when their registers are. -/
theorem vregs_ext {s t : State} (h : ∀ k, t.vreg k = s.vreg k) : t.vregs = s.vregs := by
  apply Vector.ext
  intro i hi
  exact h ⟨i, hi⟩

end Sys2Proof.Machine
end

