-- ==== Sys2Proof/Laws/Ops.lean ====
section
/-! SUPPORT. What each shared operation can do, said once: reading an operand, raising, retiring, running an operation,
a bus access, and a step. -/

namespace Sys2Proof.Machine

/-- A value read from Vk has the length LEN[k]. -/
theorem value?_length {s : State} {k : Fin 16} {v : List Limb} (h : s.value? k = some v) :
    v.length = (s.vreg k).len.toNat := LimbStore.words?_length h

theorem value?_congr {s t : State} {k : Fin 16} (h : t.vreg k = s.vreg k) : t.value? k = s.value? k := by
  simp [State.value?, h]

/-- With a length in range, the words a command reads are the register's value. -/
theorem operandWords?_eq_value? {s : State} {k : Fin 16} (h : lengthOk s.config.maxLimbs (s.vreg k).len.toNat = true) :
    s.operandWords? k = s.value? k := by
  rw [State.operandWords?, Nat.min_eq_left (lengthOk_iff.1 h).2, State.value?]

/-- The words a command reads have no value exactly when one of them was not written (R38). -/
theorem operandWords?_eq_none_iff {s : State} {k : Fin 16} : s.operandWords? k = none ↔ s.unwritten k := by
  simp only [State.operandWords?, LimbStore.words?_eq_none_iff, State.unwritten, Nat.zero_add, Nat.lt_min, and_assoc]

/-- A register that holds a list has its length in range and its words written. -/
theorem State.holds.lengthOk {s : State} {k : Fin 16} {v : List Limb} (h : s.holds k v) :
    lengthOk s.config.maxLimbs (s.vreg k).len.toNat = true := by
  rw [← value?_length h.1]
  exact (Bool.and_eq_true _ _ ▸ h.2 : _ ∧ _).1

/-- Reading an operand gives a list exactly when the register holds it. -/
theorem readOperand_ok_iff {s : State} {k : Fin 16} {v : List Limb} :
    readOperand s k = .ok v ↔ s.holds k v := by
  constructor
  · intro h
    unfold readOperand at h
    split at h
    · cases h
    · rename_i u hu
      split at h
      · rename_i hc
        cases h
        obtain ⟨hl, hv⟩ := (Bool.and_eq_true _ _).mp hc
        rw [operandWords?_eq_value? hl] at hu
        exact ⟨hu, by rw [WF, value?_length hu, hl, hv]; rfl⟩
      · cases h
  · intro h
    have hl := h.lengthOk
    have hv : limbsOk v = true := ((Bool.and_eq_true _ _).mp h.2).2
    simp [readOperand, operandWords?_eq_value? hl, h.1, hl, hv]

theorem readOperand_unwritten_iff {s : State} {k : Fin 16} : readOperand s k = .unwritten ↔ s.unwritten k := by
  rw [← operandWords?_eq_none_iff, readOperand]
  cases s.operandWords? k with
  | none => simp
  | some v => simp only [reduceCtorEq, iff_false]; split <;> simp

theorem readOperand_malformed_iff {s : State} {k : Fin 16} : readOperand s k = .malformed ↔ s.malformed k := by
  have written : (∀ i, i < (s.vreg k).len.toNat → i < s.config.maxLimbs →
      LimbStore.word? (s.vreg k).limbs i ≠ none) ↔ ¬ s.unwritten k := by
    simp [State.unwritten]
  rw [State.malformed, written, ← readOperand_unwritten_iff]
  by_cases hl : lengthOk s.config.maxLimbs (s.vreg k).len.toNat = true
  · rw [readOperand, operandWords?_eq_value? hl]
    cases hv : s.value? k with
    | none => simp
    | some u =>
      have := value?_length hv
      by_cases h2 : limbsOk u = true <;> simp [hl, h2, WF, this]
  · rw [readOperand]
    cases s.operandWords? k <;> simp [hl]

/-- What is observed of a register that holds a list is the list (R180). -/
theorem observedLimbs_of_holds {s : State} {k : Fin 16} {v : List Limb} (h : s.holds k v) :
    s.observedLimbs k = v.map some := by
  obtain ⟨hl, hw⟩ := LimbStore.words?_eq_some_iff.1 h.1
  rw [State.observedLimbs, Nat.min_eq_left (lengthOk_iff.1 h.lengthOk).2, ← hl]
  refine List.ext_getElem (by simp) fun i hi _ => ?_
  have hi' : i < v.length := by simpa using hi
  simpa [hi'] using hw i (hl ▸ hi')

/-- Every register reads as an operand in one of three ways. -/
theorem operand_cases (s : State) (k : Fin 16) : (∃ v, s.holds k v) ∨ s.malformed k ∨ s.unwritten k := by
  cases h : readOperand s k with
  | ok v => exact .inl ⟨v, readOperand_ok_iff.1 h⟩
  | malformed => exact .inr (.inl (readOperand_malformed_iff.1 h))
  | unwritten => exact .inr (.inr (readOperand_unwritten_iff.1 h))

section WithOperand
variable {s : State} {k : Fin 16} (e : ErrCode) (go : List Limb → Host.Outcome State Fault Refusal)

theorem withOperand_holds {v : List Limb} (h : s.holds k v) : withOperand s k e go = go v := by
  simp [withOperand, readOperand_ok_iff.2 h]

theorem withOperand_malformed (h : s.malformed k) : withOperand s k e go = .next (raise e s) := by
  simp [withOperand, readOperand_malformed_iff.2 h]

theorem withOperand_unwritten (h : s.unwritten k) : withOperand s k e go = .fault .unwrittenOperand := by
  simp [withOperand, readOperand_unwritten_iff.2 h]

/-- If reading an operand leads to a next state, the operand was malformed or the rest of the command ran. -/
theorem withOperand_next {e go} {t : State} (h : withOperand s k e go = .next t) :
    (s.malformed k ∧ t = raise e s) ∨ ∃ v, s.holds k v ∧ go v = .next t := by
  rcases operand_cases s k with ⟨v, hv⟩ | hm | hu
  · exact .inr ⟨v, hv, withOperand_holds e go hv ▸ h⟩
  · rw [withOperand_malformed e go hm] at h; cases h; exact .inl ⟨hm, rfl⟩
  · rw [withOperand_unwritten e go hu] at h; cases h

end WithOperand

theorem raise_errored (e : ErrCode) (s : State) : Errored e s (raise e s) where
  registers := rfl
  err := rfl
  flags := rfl
  idle := rfl
  rest := ⟨rfl, rfl, rfl, rfl, rfl, rfl, rfl⟩

/-- A result that is too long raises CAPACITY (R124). -/
theorem retire_capacity {rd : Fin 16} {c : CoreOut} {s : State} (h : s.config.maxLimbs < c.r.length) :
    retire rd c s = raise .capacity (s.setStage c.r) := by
  simp [retire, h]

theorem maxLimbs_lt (c : Config) : c.maxLimbs < 2 ^ 16 := by
  have := c.spare.isLt
  simp only [Config.maxLimbs]; omega

/-- A result that fits is committed and completed (R126, R127). -/
theorem retire_committed {rd : Fin 16} {c : CoreOut} {s : State} (h : c.r.length ≤ s.config.maxLimbs) :
    Committed rd c s (retire rd c s) := by
  have hlen : (BitVec.ofNat 16 c.r.length).toNat = c.r.length := by
    have := maxLimbs_lt s.config
    rw [BitVec.toNat_ofNat]; omega
  have hr : retire rd c s =
      { (s.setStage c.r).setValue rd c.r with status := s.status.completed c, pend := none } := by
    simp [retire, Nat.not_lt.2 h]
  have hv : ∀ k, (retire rd c s).vreg k = ((s.setStage c.r).setValue rd c.r).vreg k := by
    intro k; rw [hr]; rfl
  have hst : (retire rd c s).status = s.status.completed c := by rw [hr]
  refine ⟨?_, ?_, ?_, ?_, ?_, ?_, ?_, ?_, ?_, ?_, ?_, ?_, ?_⟩
  · simp [State.value?, hv, State.setValue, hlen, LimbStore.words?_putAll]
  · simp [hv, State.setValue, hlen]
  · intro i hi
    simp [hv, State.setValue, LimbStore.word?_putAll, Nat.not_lt.2 hi]
  · intro k hk
    simp [hv, State.setValue, hk]
  · simp [hst, Status.completed]
  · simp [hst, Status.completed]
  · simp [hst, Status.completed]
  · simp [hst, Status.completed]
  · simp [hst, Status.completed]
  · simp [hst, Status.completed]
  · simp [hst, Status.completed]
  · simp [hr]
  · rw [hr]; exact ⟨rfl, rfl, rfl, rfl, rfl, rfl, rfl⟩

/-- The operation of `i` on `s`, with core outputs `c`: its operands are held and it retires. -/
def OperationRuns (i : Instr) (s : State) (c : CoreOut) (t : State) : Prop :=
  match i with
  | .add rd ra rb => ∃ a b, s.holds ra a ∧ s.holds rb b ∧ c = addCore a b ∧ t = retire rd c s
  | .neg rd ra => ∃ a, s.holds ra a ∧ c = negCore a ∧ t = retire rd c s
  | .sub rd ra rb => ∃ a b, s.holds ra a ∧ s.holds rb b ∧ c = subCore a b ∧
      t = retire rd c (s.setStage (negCore b).r)

/-- An operation that runs computes its core outputs from what its sources hold. -/
theorem OperationRuns.computes {i : Instr} {s t : State} {c : CoreOut} (h : OperationRuns i s c t) :
    s.computes i c := by
  cases i with
  | add _ _ _ => obtain ⟨a, b, ha, hb, hc, -⟩ := h; exact ⟨a, b, ha, hb, hc⟩
  | neg _ _ => obtain ⟨a, ha, hc, -⟩ := h; exact ⟨a, ha, hc⟩
  | sub _ _ _ => obtain ⟨a, b, ha, hb, hc, -⟩ := h; exact ⟨a, b, ha, hb, hc⟩

/-- If an operation answers a next state, an operand was malformed and the state is the error's, or it ran (R122). -/
theorem exec_next {i : Instr} {s t : State} (h : exec i s = .next t) :
    (s.malformed i.sourceA ∧ t = raise .malformedA s) ∨
      (∃ rb, s.malformed rb ∧ t = raise .malformedB s) ∨ ∃ c, OperationRuns i s c t := by
  cases i with
  | add rd ra rb =>
    rcases withOperand_next h with ⟨hm, rfl⟩ | ⟨a, ha, h⟩
    · exact .inl ⟨hm, rfl⟩
    · rcases withOperand_next h with ⟨hm, rfl⟩ | ⟨b, hb, h⟩
      · exact .inr (.inl ⟨rb, hm, rfl⟩)
      · cases h; exact .inr (.inr ⟨_, a, b, ha, hb, rfl, rfl⟩)
  | neg rd ra =>
    rcases withOperand_next h with ⟨hm, rfl⟩ | ⟨a, ha, h⟩
    · exact .inl ⟨hm, rfl⟩
    · cases h; exact .inr (.inr ⟨_, a, ha, rfl, rfl⟩)
  | sub rd ra rb =>
    rcases withOperand_next h with ⟨hm, rfl⟩ | ⟨a, ha, h⟩
    · exact .inl ⟨hm, rfl⟩
    · rcases withOperand_next h with ⟨hm, rfl⟩ | ⟨b, hb, h⟩
      · exact .inr (.inl ⟨rb, hm, rfl⟩)
      · cases h; exact .inr (.inr ⟨_, a, b, ha, hb, rfl, rfl⟩)

/-- If an access answers a next state, reset is not asserted and the access reached a mapped word. -/
theorem busAccess_next {a : BusAccess} {s t : State} (h : busAccess a s = .next t) :
    s.resetAsserted = false ∧ ∃ slot, locate s.config a = .ok slot ∧ accessSlot s slot a = .next t := by
  unfold busAccess at h
  split at h
  · cases h
  · rename_i hr
    refine ⟨by simpa using hr, ?_⟩
    split at h
    · cases h
    · exact ⟨_, ‹_›, h⟩

/-- If an access to a mapped word answers a next state, it was a read that returned a word, or a write. -/
theorem accessSlot_next {s t : State} {slot : Slot} {a : BusAccess} (h : accessSlot s slot a = .next t) :
    (∃ addr width w, a = .read addr width ∧ readSlot s slot = some w ∧ t = respond (.data w) s) ∨
      ∃ addr width w, a = .write addr width w ∧ t = respond .done (writeSlot s w slot) := by
  cases a with
  | read addr width =>
    simp only [accessSlot] at h
    split at h
    · cases h; exact .inl ⟨addr, width, _, rfl, ‹_›, rfl⟩
    · cases h
  | write addr width w => cases h; exact .inr ⟨addr, width, w, rfl, rfl⟩

/-- The executed word was an error, or an operation that ran. -/
theorem execWord_next {w : Word64} {s t : State} (h : execWord w s = .next t) :
    (∃ e, decode w = .error e ∧ t = raise (decodeErrCode e) s) ∨ ∃ i, decode w = .ok i ∧ exec i s = .next t := by
  unfold execWord at h
  split at h
  · cases h; exact .inl ⟨_, ‹_›, rfl⟩
  · exact .inr ⟨_, ‹_›, h⟩

theorem step_nil {s : State} (h : s.schedule = []) : step s = executeStep s := by
  simp [step, h]

theorem step_cons {s : State} {e : Event} {rest : List Event} (h : s.schedule = e :: rest) :
    step s = perform e { s with schedule := rest } := by
  simp [step, h]

/-- With reset not asserted, an access is the access to the word it reaches. -/
theorem busAccess_located {a : BusAccess} {s : State} {slot : Slot} (hr : s.resetAsserted = false)
    (h : locate s.config a = .ok slot) : busAccess a s = accessSlot s slot a := by
  simp [busAccess, hr, h]

/-- A step on a bus event that reaches a mapped word. -/
theorem step_bus_located {s : State} {a : BusAccess} {rest : List Event} {slot : Slot}
    (hs : s.schedule = .bus a :: rest) (hr : s.resetAsserted = false) (h : locate s.config a = .ok slot) :
    step s = accessSlot { s with schedule := rest } slot a := by
  rw [step_cons hs]
  exact busAccess_located hr h

/-- A step on a bus event that faults. -/
theorem step_bus_fault {s : State} {a : BusAccess} {rest : List Event} {f : Fault}
    (hs : s.schedule = .bus a :: rest) (hr : s.resetAsserted = false) (h : locate s.config a = .error f) :
    step s = .fault f := by
  rw [step_cons hs]
  show busAccess a { s with schedule := rest } = .fault f
  unfold busAccess
  rw [if_neg (by simp [hr]), h]

/-- A step on the execution event runs the pending command. -/
theorem step_execute {s : State} {rest : List Event} (hs : s.schedule = .execute :: rest) :
    step s = executeStep { s with schedule := rest } := by
  rw [step_cons hs]; rfl

theorem executeStep_some {s : State} {w : Word64} (h : s.pend = some w) : executeStep s = execWord w s := by
  simp [executeStep, h]

theorem executeStep_none {s : State} (h : s.pend = none) : executeStep s = .next s := by
  simp [executeStep, h]

/-- The state a step works on: the event it takes is used up. -/
def State.popped (s : State) : State := { s with schedule := s.schedule.tail }

section Popped
variable (s : State) (k : Fin 16)

@[simp] theorem popped_config : s.popped.config = s.config := rfl
@[simp] theorem popped_vregs : s.popped.vregs = s.vregs := rfl
@[simp] theorem popped_vreg : s.popped.vreg k = s.vreg k := rfl
@[simp] theorem popped_status : s.popped.status = s.status := rfl
@[simp] theorem popped_pend : s.popped.pend = s.pend := rfl
@[simp] theorem popped_cmdLast : s.popped.cmdLast = s.cmdLast := rfl
@[simp] theorem popped_stage : s.popped.stage = s.stage := rfl
@[simp] theorem popped_resetAsserted : s.popped.resetAsserted = s.resetAsserted := rfl
@[simp] theorem popped_schedule : s.popped.schedule = s.schedule.tail := rfl
@[simp] theorem popped_responses : s.popped.responses = s.responses := rfl

end Popped

/-- If a step answers a next state, one of six things happened: the pending command executed; an execution step fell
while nothing was pending; the machine was reset; a reset input that was not asserted was released; the host read a
mapped word; or the host wrote one. -/
theorem step_next {s t : State} (h : step s = .next t) :
    (s.executesNext ∧ ∃ w, s.pend = some w ∧ execWord w s.popped = .next t) ∨
    (s.pend = none ∧ (s.schedule = [] ∨ ∃ rest, s.schedule = .execute :: rest) ∧ t = s.popped) ∨
    (s.resetNext ∧ ∃ level, t = resetTo level s.popped) ∨
    ((∃ rest, s.schedule = .releaseReset :: rest) ∧ s.resetAsserted = false ∧ t = s.popped) ∨
    (∃ addr width slot w rest, s.schedule = .bus (.read addr width) :: rest ∧ s.resetAsserted = false ∧
      locate s.config (.read addr width) = .ok slot ∧ readSlot s slot = some w ∧ t = respond (.data w) s.popped) ∨
    (∃ addr width w slot rest, s.schedule = .bus (.write addr width w) :: rest ∧ s.resetAsserted = false ∧
      locate s.config (.write addr width w) = .ok slot ∧ t = respond .done (writeSlot s.popped w slot)) := by
  have executes (hs : s.schedule = [] ∨ ∃ rest, s.schedule = .execute :: rest)
      (he : executeStep s.popped = .next t) :
      (s.executesNext ∧ ∃ w, s.pend = some w ∧ execWord w s.popped = .next t) ∨
      (s.pend = none ∧ (s.schedule = [] ∨ ∃ rest, s.schedule = .execute :: rest) ∧ t = s.popped) := by
    cases hp : s.pend with
    | none => rw [executeStep_none (s := s.popped) hp] at he; cases he; exact .inr ⟨rfl, hs, rfl⟩
    | some w =>
      rw [executeStep_some (s := s.popped) hp] at he
      exact .inl ⟨⟨by simp [hp], hs⟩, w, rfl, he⟩
  cases hs : s.schedule with
  | nil =>
    have hp : s = s.popped := by cases s; simp_all [State.popped]
    rw [step_nil hs, hp] at h
    have := executes (.inl hs) h
    rw [hs] at this; exact this.imp_right .inl
  | cons e rest =>
    have hp : { s with schedule := rest } = s.popped := by simp [State.popped, hs]
    rw [step_cons hs, hp] at h
    cases e with
    | execute =>
      have := executes (.inr ⟨rest, hs⟩) h
      rw [hs] at this; exact this.imp_right .inl
    | assertReset => cases h; exact .inr (.inr (.inl ⟨⟨rest, .inl hs⟩, true, rfl⟩))
    | releaseReset =>
      simp only [perform] at h
      split at h
      · cases h; exact .inr (.inr (.inl ⟨⟨rest, .inr ⟨hs, ‹_›⟩⟩, false, rfl⟩))
      · rename_i hr
        cases h
        exact .inr (.inr (.inr (.inl ⟨⟨rest, rfl⟩, by simpa [State.popped] using hr, rfl⟩)))
    | bus a =>
      obtain ⟨hr, slot, hl, ha⟩ := busAccess_next h
      rcases accessSlot_next ha with ⟨addr, width, w, rfl, hw, rfl⟩ | ⟨addr, width, w, rfl, rfl⟩
      · exact .inr (.inr (.inr (.inr (.inl ⟨addr, width, slot, w, rest, rfl, hr, hl,
          by cases slot <;> exact hw, rfl⟩))))
      · exact .inr (.inr (.inr (.inr (.inr ⟨addr, width, w, slot, rest, rfl, hr, hl, rfl⟩))))

end Sys2Proof.Machine
end

