-- ==== Sys2Proof/Laws/PerInstr.lean ====
section
/-! SUPPORT. Statements made per constructor of Instr: the family TableRow says that an operation's command word is one of
its row of the opcode table (R73). -/

namespace Sys2Proof

/-- The match value of an operation's row (R73). -/
def rowMatch : Instr → Word64
  | .add _ _ _ => 0x0000000000000001#64
  | .neg _ _   => 0x0000000000000002#64
  | .sub _ _ _ => 0x0000000000000003#64

/-- The mask of an operation's row (R73). -/
def rowMask : Instr → Word64
  | .add _ _ _ => 0xFFFFFFFFFFF000FF#64
  | .neg _ _   => 0xFFFFFFFFFFFF00FF#64
  | .sub _ _ _ => 0xFFFFFFFFFFF000FF#64

end Sys2Proof

namespace Sys2Proof.Laws.TableRow

/-- The operation's word selects its row (R73). -/
def Statement (i : Instr) : Prop := encode i &&& rowMask i = rowMatch i

theorem add (rd ra rb : Fin 16) : Statement (.add rd ra rb) := by
  simp only [Statement, encode, rowMask, rowMatch, Command.toWord]
  generalize regField rd = d; generalize regField ra = a; generalize regField rb = b
  revert d a b
  decide

theorem neg (rd ra : Fin 16) : Statement (.neg rd ra) := by
  simp only [Statement, encode, rowMask, rowMatch, Command.toWord]
  generalize regField rd = d; generalize regField ra = a
  revert d a
  decide

theorem sub (rd ra rb : Fin 16) : Statement (.sub rd ra rb) := by
  simp only [Statement, encode, rowMask, rowMatch, Command.toWord]
  generalize regField rd = d; generalize regField ra = a; generalize regField rb = b
  revert d a b
  decide

end Sys2Proof.Laws.TableRow
end

