-- ==== Sys2Proof/Tests/Slice0.lean ====
section
/-! SUPPORT. Tests. The decode words, the operand checks and the one-step vectors take their expected results from
30_encoding.md R78 and 95_test_vectors.md. The witnesses show, for each statement that has hypotheses, a concrete state
and operands that meet all of them, clause by clause at the boundaries. -/

namespace Sys2Proof.Machine

/-! ## Helpers -/

/-- MAXLIMBS = 3, the least legal value, and BASE = 0. -/
def cfg3 : Config := ⟨0, 0⟩

/-- MAXLIMBS = 4 and BASE = 2^25. -/
def cfg4 : Config := ⟨1, 1⟩

/-- B - 1. -/
def b1 : Limb := 999999999999999999#64

/-- The reset state with values put into V0 and V1. -/
def with01 (c : Config) (a b : List Limb) : State := ((State.resetWith c).setValue 0 a).setValue 1 b

/-- A state with a command pending and the given events to come. -/
def inFlight (w : Word64) (es : List Event) (s : State) : State := { accept w s with schedule := es }

/-- A state with the given events to come. -/
def facing (es : List Event) (s : State) : State := { s with schedule := es }

/-- The next state of an outcome, if it is one. -/
def nextState? : Host.Outcome State Fault Refusal → Option State
  | .next t => some t
  | _ => none

/-- One step that runs the word `w`: register Vk's value and the STATUS word after it. -/
def runWord (s : State) (w : Nat) (k : Fin 16) : Option (Option (List Limb) × Word64) :=
  (nextState? (step (s.withFetchWord 64 w))).map fun t => (t.value? k, t.statusWord)

/-! ## Decoding: words written out from the spec's encoding (R78, 95_test_vectors.md L2.5) -/

theorem test_decode_add :
    decode 0x0000000000010201#64 = .ok (.add 2 0 1) ∧ decode 0x00000000000F0301#64 = .ok (.add 3 0 15) ∧
    decode 0x0000000000000001#64 = .ok (.add 0 0 0) := by decide

theorem test_decode_neg :
    decode 0x0000000000002302#64 = .ok (.neg 3 2) ∧ decode 0x000000000000F002#64 = .ok (.neg 0 15) := by decide

theorem test_decode_sub :
    decode 0x0000000000010403#64 = .ok (.sub 4 0 1) ∧ decode 0x0000000000001203#64 = .ok (.sub 2 1 0) ∧
    decode 0x00000000000FFF03#64 = .ok (.sub 15 15 15) := by decide

theorem test_decode_illegal_opcode :
    decode 0x0000000000000000#64 = .error .illegalOpcode ∧ decode 0x0000000000000004#64 = .error .illegalOpcode ∧
    decode 0x00000000000000FF#64 = .error .illegalOpcode ∧ decode 0x0000000000000100#64 = .error .illegalOpcode ∧
    decode 0xFFFFFFFFFFFFFF00#64 = .error .illegalOpcode := by decide

theorem test_decode_reserved_field :
    decode 0x8000000000000003#64 = .error .reservedField ∧ decode 0x0000000000100003#64 = .error .reservedField ∧
    decode 0x00000000000F0002#64 = .error .reservedField ∧ decode 0x0000000000010102#64 = .error .reservedField := by
  decide

theorem test_decodeTableWord : decodeTableWord 64 0x12302 = none ∧ decodeTableWord 64 0x2302 = some (.neg 3 2) := by
  decide

theorem test_assemble :
    assemble ['A', 'd', 'd'] [['v', '2'], ['V', '0'], ['v', '1', '5']] = some (.add 2 0 15) ∧
    assemble ['n', 'e', 'g'] [['v', '3'], ['v', '1', '6']] = none := by decide

/-! ## Well-formedness: each check refuses an ill-formed term -/

/-- OPC 0x00, no operation (R75). -/
theorem test_wf_refuses_opcode : (Command.mk 0x00#8 2#4 0#4 1#4 0#44).wellFormed = false := by decide

/-- A reserved bit set (R76). -/
theorem test_wf_refuses_reserved : (Command.mk 0x01#8 2#4 0#4 1#4 1#44).wellFormed = false := by decide

/-- NEG with RB = 1 (R76). -/
theorem test_wf_refuses_neg_rb : (Command.mk 0x02#8 1#4 0#4 1#4 0#44).wellFormed = false := by decide

theorem test_wf_accepts : (Command.mk 0x02#8 3#4 2#4 0#4 0#44).wellFormed = true := by decide

/-- A limb list of one limb, of more than MAXLIMBS, with a limb B, and with the sign limbs 1 and B-2 (R13). -/
theorem test_WF_refuses :
    WF 3 [5#64] = false ∧ WF 3 [0#64, 0#64, 0#64, 0#64] = false ∧ WF 3 [1000000000000000000#64, 0#64] = false ∧
    WF 3 [5#64, 1#64] = false ∧ WF 3 [0#64, badSign] = false ∧ WF 3 [b1, b1] = true := by decide

/-! ## One step of each operation (95_test_vectors.md L2) -/

/-- V-ADD-7: the shorter negative operand is zero-filled. -/
theorem test_add_zero_fill :
    runWord (with01 ⟨5, 0⟩ [5#64, 0#64, 0#64] [b1, b1]) 0x10201 2 =
      some (some [4#64, 0#64, 1#64, 0#64], 0x2200#64) := by decide

/-- V-ADD-8: the sign limb B-2. -/
theorem test_add_signbad :
    runWord (with01 cfg3 [0#64, b1] [0#64, b1]) 0x10201 2 =
      some (some [0#64, 999999999999999998#64], 0x1100#64) := by decide

/-- V-NEG-4, here in place: the most negative value grows. -/
theorem test_neg_grows : runWord (with01 cfg3 [0#64, b1] []) 0x0002 0 = some (some [0#64, 1#64, 0#64], 0x0200#64) := by
  decide

/-- V-NEG-3: zero, with the carry out of every position. -/
theorem test_neg_zero : runWord (with01 cfg3 [0#64, 0#64] []) 0x0202 2 = some (some [0#64, 0#64], 0x0900#64) := by
  decide

/-- V-SUB-1. -/
theorem test_sub_negative_result :
    runWord (with01 cfg3 [5#64, 0#64] [10#64, 0#64]) 0x10403 4 =
      some (some [999999999999999995#64, b1], 0x0400#64) := by decide

/-- V-SUB-7: a shorter negative minuend, and a subtrahend whose negation keeps its length. -/
theorem test_sub_zero_fill :
    runWord (with01 cfg3 [b1, b1] [0#64, 1#64, 0#64]) 0x10203 2 =
      some (some [b1, 999999999999999998#64, 0#64], 0x2100#64) := by decide

/-- V-ERR-1, V-ERR-3, V-ERR-5, V-ERR-6, V-ERR-10: the STATUS word of each error. -/
theorem test_errors :
    (runWord (State.resetWith cfg3) 0x0 2).map Prod.snd = some 0x10#64 ∧
    (runWord (State.resetWith cfg3) 0x100001 2).map Prod.snd = some 0x20#64 ∧
    (runWord (State.resetWith cfg3) 0x10201 2).map Prod.snd = some 0x30#64 ∧
    (runWord (with01 cfg3 [5#64, 0#64] [1000000000000000000#64, 0#64]) 0x10201 2).map Prod.snd = some 0x40#64 ∧
    (runWord (with01 cfg3 [b1, b1, 0#64] [1#64, 0#64]) 0x10201 2).map Prod.snd = some 0x50#64 := by decide

/-- V-ERR-9: LEN above MAXLIMBS, the register's limb words written. R38: the same length over a word never written, and
LEN = 1 over one, fault. -/
theorem test_length_out_of_range :
    (runWord ((State.resetWith cfg3).setVReg 0 ⟨4#16, [(0, 5#64), (1, 0#64), (2, 0#64)]⟩) 0x0202 2).map Prod.snd =
      some 0x30#64 ∧
    runWord ((State.resetWith cfg3).setVReg 0 ⟨4#16, [(0, 5#64), (1, 0#64)]⟩) 0x0202 2 = none ∧
    runWord ((State.resetWith cfg3).setVReg 0 ⟨1#16, []⟩) 0x0202 2 = none := by decide

/-- R180: the observation keeps a register's written limb words beside one never written, and leaves out those at LEN and
above. -/
theorem test_observe_partly_written :
    (((State.resetWith cfg3).setVReg 0 ⟨2#16, [(1, 7#64), (2, 9#64)]⟩).observe.registers)[0]? =
      some (2#16, [none, some 7#64]) := by decide

/-- The first step after reset runs the word it is given, for every MAXLIMBS and BASE. -/
theorem test_first_step_after_reset (c : Config) :
    step ((State.resetWith c).withFetchWord 64 0x10201) = exec (.add 2 0 1) (accept 0x10201#64 (State.resetWith c)) :=
  rfl

/-- V-BUS-5 and V-BUS-6: ID with MAXLIMBS = 3, and RADIX. -/
theorem test_identification :
    readSlot (State.resetWith cfg3) .id = some 0x0001004000031012#64 ∧
    readSlot (State.resetWith cfg3) .radix = some 0x0DE0B6B3A7640000#64 := by decide

/-! ## Witnesses: the command cycle -/

theorem test_witness_CmdWriteAcceptedOnlyWhenIdle :
    (let s := facing [hostWrite cfg4 0x10 0x10201#64] (State.resetWith cfg4)
     s.resetAsserted = false ∧ s.schedule = [.bus (.write (s.config.base + 0x0010) 8 0x10201#64)] ∧ s.busy = false) ∧
    (let s := inFlight 0x0#64 [hostWrite cfg4 0x10 0x10201#64] (State.resetWith cfg4)
     s.resetAsserted = false ∧ s.schedule = [.bus (.write (s.config.base + 0x0010) 8 0x10201#64)] ∧ s.busy = true) := by
  decide

theorem test_witness_StepRunsDecodedCommand :
    decode 0x10201#64 = .ok (.add 2 0 1) ∧
    (inFlight 0x10201#64 [] (State.resetWith cfg3)).pend = some 0x10201#64 ∧
    (inFlight 0x10201#64 [] (State.resetWith cfg3)).schedule = [] ∧
    (inFlight 0x10201#64 [.execute] (State.resetWith cfg3)).pend = some 0x10201#64 ∧
    (inFlight 0x10201#64 [.execute] (State.resetWith cfg3)).schedule = [.execute] := by decide

theorem test_witness_UndecodableWordRaisesItsCode (w : Word64) :
    decode 0x04#64 = .error .illegalOpcode ∧ decode 0x100001#64 = .error .reservedField ∧
    decode 0x10102#64 = .error .reservedField ∧ (inFlight w [.execute] (State.resetWith cfg3)).pend = some w ∧
    (inFlight w [.execute] (State.resetWith cfg3)).schedule = [.execute] :=
  ⟨by decide, by decide, by decide, rfl, rfl⟩

theorem test_witness_IdleMachineStays :
    (State.resetWith cfg3).ended ∧ (facing [.execute] (State.resetWith cfg3)).busy = false ∧
      (facing [.execute] (State.resetWith cfg3)).schedule = [.execute] := ⟨⟨rfl, rfl⟩, rfl, rfl⟩

/-! ## Witnesses: the operations -/

/-- Operands whose results have exactly MAXLIMBS limbs. -/
theorem test_witness_commits :
    (with01 cfg3 [b1, 0#64] [1#64, 0#64]).holds 0 [b1, 0#64] ∧
    (with01 cfg3 [b1, 0#64] [1#64, 0#64]).holds 1 [1#64, 0#64] ∧
    (addCore [b1, 0#64] [1#64, 0#64]).r.length = cfg3.maxLimbs ∧
    (with01 cfg3 [0#64, b1] []).holds 0 [0#64, b1] ∧ (negCore [0#64, b1]).r.length = cfg3.maxLimbs ∧
    (with01 cfg3 [3#64, 0#64] [0#64, b1]).holds 0 [3#64, 0#64] ∧
    (with01 cfg3 [3#64, 0#64] [0#64, b1]).holds 1 [0#64, b1] ∧
    (subCore [3#64, 0#64] [0#64, b1]).r.length = cfg3.maxLimbs := by
  refine ⟨⟨?_, ?_⟩, ⟨?_, ?_⟩, ?_, ⟨?_, ?_⟩, ?_, ⟨?_, ?_⟩, ⟨?_, ?_⟩, ?_⟩ <;> decide

/-- AddOfEqualLengthsIsExact: the least sum two limbs hold, one limb of room. -/
theorem test_witness_AddOfEqualLengthsIsExact :
    (with01 cfg3 [0#64, b1] [0#64, 0#64]).holds 0 [0#64, b1] ∧
    (with01 cfg3 [0#64, b1] [0#64, 0#64]).holds 1 [0#64, 0#64] ∧
    [0#64, b1].length < cfg3.maxLimbs ∧
    -((radix : Int) ^ 1) ≤ signedValue [0#64, b1] + signedValue [0#64, 0#64] := by
  refine ⟨⟨?_, ?_⟩, ⟨?_, ?_⟩, ?_, ?_⟩ <;> decide

/-- NegIsExactWithItsFlags: the most negative value of two limbs, one limb of room; and zero. -/
theorem test_witness_NegIsExactWithItsFlags :
    (with01 cfg3 [0#64, b1] [0#64, 0#64]).holds 0 [0#64, b1] ∧
    (with01 cfg3 [0#64, b1] [0#64, 0#64]).holds 1 [0#64, 0#64] ∧ [0#64, b1].length < cfg3.maxLimbs ∧
    [0#64, b1] = mostNegative 2 := by
  refine ⟨⟨?_, ?_⟩, ⟨?_, ?_⟩, ?_, ?_⟩ <;> decide

/-- SubOfNonNegativeIsExact: operands of MAXLIMBS limbs and of the least length. -/
theorem test_witness_SubOfNonNegativeIsExact :
    (with01 cfg3 [5#64, 0#64] [b1, b1, 0#64]).holds 0 [5#64, 0#64] ∧
    (with01 cfg3 [5#64, 0#64] [b1, b1, 0#64]).holds 1 [b1, b1, 0#64] ∧
    isNegative [5#64, 0#64] = false ∧ isNegative [b1, b1, 0#64] = false := by
  refine ⟨⟨?_, ?_⟩, ⟨?_, ?_⟩, ?_, ?_⟩ <;> decide

/-- Each operation answers a next state: for CommandChangesOnlyItsDestination and CommandIsAllOrNothing, one that commits
and one that raises. -/
theorem test_witness_commands_go_on :
    (nextState? (exec (.add 2 0 1) (with01 cfg3 [5#64, 0#64] [6#64, 0#64]))).map (·.status.err) = some .noError ∧
    (nextState? (exec (.neg 2 0) (with01 cfg3 [5#64, 0#64] [6#64, 0#64]))).map (·.status.err) = some .noError ∧
    (nextState? (exec (.sub 2 0 1) (with01 cfg3 [5#64, 0#64] [6#64, 0#64]))).map (·.status.err) = some .noError ∧
    (nextState? (exec (.sub 2 0 1) (State.resetWith cfg3))).map (·.status.err) = some .malformedA := by decide

/-- AliasedDestinationGivesSameResult: a distinct destination and one that is the first source. -/
theorem test_witness_AliasedDestinationGivesSameResult :
    ∀ rd ∈ [0, 1, 2], ((nextState? (exec (.add rd 0 1) (with01 cfg3 [5#64, 0#64] [6#64, 0#64]))).map (·.status.err) =
        some .noError) ∧
      ((nextState? (exec (.neg rd 0) (with01 cfg3 [5#64, 0#64] [6#64, 0#64]))).map (·.status.err) = some .noError) ∧
      ((nextState? (exec (.sub rd 0 1) (with01 cfg3 [5#64, 0#64] [6#64, 0#64]))).map (·.status.err) =
        some .noError) := by decide

/-- StaleLimbsTakeNoPart: two states that differ in a limb word at the length of V0. -/
theorem test_witness_StaleLimbsTakeNoPart :
    let s := with01 cfg3 [5#64, 0#64] []
    let s' := s.setVReg 0 { s.vreg 0 with limbs := LimbStore.put (s.vreg 0).limbs 2 7#64 }
    SameBelowLengths s s' ∧ s ≠ s' :=
  ⟨⟨rfl, rfl, by decide, by decide⟩, by decide⟩

/-! ## Witnesses: errors -/

/-- OperandChecksInOrder and FirstApplicableErrorIsReported: malformed registers at the boundaries of R13 (length 0, length
1, length MAXLIMBS + 1 over written words as in V-ERR-9, a limb B, the sign limbs 1 and B-2). -/
theorem test_witness_malformed_operands :
    (State.resetWith cfg3).malformed 0 ∧ (with01 cfg3 [5#64] []).malformed 0 ∧
    ((with01 cfg3 [5#64, 0#64, 0#64] []).setVReg 0 ⟨4#16, [(0, 5#64), (1, 0#64), (2, 0#64)]⟩).malformed 0 ∧
    (with01 cfg3 [1000000000000000000#64, 0#64] []).malformed 0 ∧ (with01 cfg3 [5#64, 1#64] []).malformed 0 ∧
    (with01 cfg3 [5#64, badSign] []).malformed 0 ∧
    (with01 cfg3 [5#64, 0#64] [5#64]).holds 0 [5#64, 0#64] ∧ (with01 cfg3 [5#64, 0#64] [5#64]).malformed 1 := by
  refine ⟨⟨?_, .inl ?_⟩, ⟨?_, .inl ?_⟩, ⟨?_, .inl ?_⟩, ⟨?_, .inr ⟨[1000000000000000000#64, 0#64], ?_, ?_⟩⟩,
    ⟨?_, .inr ⟨[5#64, 1#64], ?_, ?_⟩⟩, ⟨?_, .inr ⟨[5#64, badSign], ?_, ?_⟩⟩, ⟨?_, ?_⟩, ⟨?_, .inl ?_⟩⟩ <;> decide

/-- OperandChecksInOrder: registers with a limb word never written in their range, of length 1, 2 and MAXLIMBS + 1, and one
whose written limb 0 is out of range as well. -/
theorem test_witness_unwritten_operands :
    ((State.resetWith cfg3).setVReg 0 ⟨1#16, []⟩).unwritten 0 ∧
    ((State.resetWith cfg3).setVReg 0 ⟨2#16, [(0, 1000000000000000000#64)]⟩).unwritten 0 ∧
    ((State.resetWith cfg3).setVReg 0 ⟨4#16, [(0, 5#64), (1, 0#64)]⟩).unwritten 0 ∧
    ((with01 cfg3 [5#64, 0#64] []).setVReg 1 ⟨3#16, [(0, 5#64), (1, 0#64)]⟩).holds 0 [5#64, 0#64] ∧
    ((with01 cfg3 [5#64, 0#64] []).setVReg 1 ⟨3#16, [(0, 5#64), (1, 0#64)]⟩).unwritten 1 := by
  refine ⟨⟨0, ?_, ?_, ?_⟩, ⟨1, ?_, ?_, ?_⟩, ⟨2, ?_, ?_, ?_⟩, ⟨?_, ?_⟩, ⟨2, ?_, ?_, ?_⟩⟩ <;> decide

/-- OverlongResultRaisesCapacity, CapacityOnlyAtFullLength: results of MAXLIMBS + 1 limbs (V-ERR-13, V-ERR-10,
V-ERR-11). -/
theorem test_witness_capacity :
    (with01 cfg3 [0#64, 0#64, b1] []).holds 0 [0#64, 0#64, b1] ∧
    cfg3.maxLimbs < (negCore [0#64, 0#64, b1]).r.length ∧
    (nextState? (exec (.neg 2 0) (with01 cfg3 [0#64, 0#64, b1] []))).map (·.status.err) = some .capacity ∧
    (with01 cfg3 [b1, b1, 0#64] [1#64, 0#64]).holds 0 [b1, b1, 0#64] ∧
    (with01 cfg3 [b1, b1, 0#64] [1#64, 0#64]).holds 1 [1#64, 0#64] ∧
    cfg3.maxLimbs < (addCore [b1, b1, 0#64] [1#64, 0#64]).r.length ∧
    (nextState? (exec (.add 2 0 1) (with01 cfg3 [b1, b1, 0#64] [1#64, 0#64]))).map (·.status.err) = some .capacity ∧
    (with01 cfg3 [0#64, 0#64, 0#64] [0#64, 0#64, b1]).holds 0 [0#64, 0#64, 0#64] ∧
    (with01 cfg3 [0#64, 0#64, 0#64] [0#64, 0#64, b1]).holds 1 [0#64, 0#64, b1] ∧
    cfg3.maxLimbs < (subCore [0#64, 0#64, 0#64] [0#64, 0#64, b1]).r.length := by
  refine ⟨⟨?_, ?_⟩, ?_, ?_, ⟨?_, ?_⟩, ⟨?_, ?_⟩, ?_, ?_, ⟨?_, ?_⟩, ⟨?_, ?_⟩, ?_⟩ <;> decide

/-- FirstApplicableErrorIsReported: executed words of every clause go on. -/
theorem test_witness_FirstApplicableErrorIsReported :
    (nextState? (execWord 0x100000#64 (State.resetWith cfg3))).map (·.status.err) = some .illegalOpcode ∧
    (nextState? (execWord 0x100001#64 (State.resetWith cfg3))).map (·.status.err) = some .reservedField ∧
    (nextState? (execWord 0x10102#64 (State.resetWith cfg3))).map (·.status.err) = some .reservedField ∧
    (nextState? (execWord 0x10201#64 (with01 cfg3 [5#64, 1#64] [5#64]))).map (·.status.err) = some .malformedA ∧
    (nextState? (execWord 0x10203#64 (with01 cfg3 [5#64, 0#64] [5#64]))).map (·.status.err) = some .malformedB ∧
    (nextState? (execWord 0x0202#64 (with01 cfg3 [0#64, 0#64, b1] []))).map (·.status.err) = some .capacity ∧
    (nextState? (execWord 0x10201#64 (with01 cfg3 [b1, 0#64] [1#64, 0#64]))).map (·.status.err) = some .noError ∧
    (nextState? (execWord 0x10203#64 (with01 cfg3 [0#64, 0#64, 0#64] [0#64, 0#64, b1]))).map (·.status.err) =
      some .capacity := by decide

/-! ## Witnesses: the bus window -/

/-- AddressMapIsExact: the ends of each range of the map, MAXLIMBS = 3 (R53, R54). -/
theorem test_witness_AddressMapIsExact :
    slotAt 3 0x18 = some .status ∧ slotAt 3 0x20 = none ∧ slotAt 3 0x100 = some (.len 0) ∧
    slotAt 3 0x178 = some (.len 15) ∧ slotAt 3 0x180 = none ∧ slotAt 3 0xFFFFF8 = none ∧
    slotAt 3 0x1000000 = some (.limb 0 0) ∧ slotAt 3 0x1000010 = some (.limb 0 2) ∧ slotAt 3 0x1000018 = none ∧
    slotAt 3 0x1780010 = some (.limb 15 2) ∧ slotAt 3 0x1800000 = none := by decide

/-- BadBusAccessFaults: V-BUS-1, V-BUS-2 and V-BUS-3, and the window's last word, in a window at 2^25. -/
theorem test_witness_BadBusAccessFaults :
    cfg4.base ≤ (BusAccess.read (0x2000000 + 0x18) 4).addr ∧
    (BusAccess.read (0x2000000 + 0x18) 4).addr < cfg4.base + 0x01800000 ∧ (BusAccess.read 0x2000018 4).width ≠ 8 ∧
    ((BusAccess.write (0x2000000 + 0x14) 8 0#64).addr - cfg4.base) % 8 ≠ 0 ∧
    (∀ off ∈ [0x20, 0x17FFFF8], ((BusAccess.read (0x2000000 + off) 8).addr - cfg4.base) % 8 = 0 ∧
      0x2000000 + off < cfg4.base + 0x01800000 ∧
      ∀ slot : Slot, slot.listed cfg4.maxLimbs →
        slot.offset ≠ (BusAccess.read (0x2000000 + off) 8).addr - cfg4.base) := by
  refine ⟨by decide, by decide, by decide, by decide, fun off ho => ?_⟩
  have hb : cfg4.base = 0x2000000 := rfl
  have hm : cfg4.maxLimbs = 4 := rfl
  simp only [BusAccess.addr, hb, hm]
  rcases List.mem_cons.1 ho with rfl | ho
  · refine ⟨by omega, by omega, fun slot h => ?_⟩
    cases slot <;> simp only [Slot.offset, lenBase, limbBase, limbStride] <;> omega
  · obtain rfl := List.mem_singleton.1 ho
    refine ⟨by omega, by omega, fun slot h => ?_⟩
    cases slot with
    | limb k i =>
      have : i < 4 := h
      simp only [Slot.offset, limbBase, limbStride]; omega
    | _ => simp only [Slot.offset, lenBase]; omega

theorem test_witness_ForeignOrResetAccessFaults :
    (resetTo true (facing [hostRead cfg4 0] (State.resetWith cfg4))).resetAsserted = true ∧
    (resetTo true (facing [hostRead cfg4 0] (State.resetWith cfg4))).schedule = [.bus (.read 0x2000000 8)] ∧
    (facing [.bus (.read 0x1FFFFF8 8)] (State.resetWith cfg4)).resetAsserted = false ∧
    (BusAccess.read 0x1FFFFF8 8).addr < cfg4.base ∧ cfg4.base + 0x01800000 ≤ (BusAccess.read 0x3800000 8).addr := by
  decide

/-- ReadHasNoSideEffect: a register with a value, a readable word (LIMB[0][1], and CMD while BUSY = 1), and one never written (V-BUS-11). -/
theorem test_witness_ReadHasNoSideEffect :
    (with01 cfg4 [5#64, 0#64] []).value? 0 = some [5#64, 0#64] ∧
    (with01 cfg4 [5#64, 0#64] []).resetAsserted = false ∧
    readSlot (with01 cfg4 [5#64, 0#64] []) (.limb 0 1) = some 0#64 ∧
    readSlot (inFlight 4#64 [] (State.resetWith cfg4)) .cmd = some 4#64 ∧
    readSlot (State.resetWith cfg4) (.limb 0 3) = none ∧
    (facing [hostRead cfg4 (Slot.limb 0 3).offset] (State.resetWith cfg4)).schedule =
      [.bus (.read (cfg4.base + (Slot.limb 0 3).offset) 8)] ∧ (Slot.limb 0 3).listed cfg4.maxLimbs :=
  ⟨by decide, rfl, by decide, rfl, by decide, rfl, show 3 < 4 by decide⟩

/-- IdentificationRegistersAreConstant, StatusWriteClearsStickyBits: the accesses they speak of, reset not asserted. -/
theorem test_witness_accesses :
    (State.resetWith cfg4).resetAsserted = false ∧
    hostRead cfg4 0x0 = .bus (.read (cfg4.base + 0x0000) 8) ∧ hostRead cfg4 0x8 = .bus (.read (cfg4.base + 0x0008) 8) ∧
    hostWrite cfg4 0x0 0x1234#64 = .bus (.write (cfg4.base + 0x0000) 8 0x1234#64) ∧
    hostWrite cfg4 0x18 0x30000#64 = .bus (.write (cfg4.base + 0x0018) 8 0x30000#64) := by decide

/-- RegisterWriteDroppedWhileBusy, RegisterWriteReadsBackWhileIdle: the last LEN and LIMB words of the map. -/
theorem test_witness_register_words :
    (Slot.len 15).isRegisterWord ∧ (Slot.len 15).listed cfg4.maxLimbs ∧ (Slot.limb 15 3).isRegisterWord ∧
    (Slot.limb 15 3).listed cfg4.maxLimbs ∧ (inFlight 0#64 [] (State.resetWith cfg4)).busy = true ∧
    (inFlight 0#64 [] (State.resetWith cfg4)).resetAsserted = false ∧ (State.resetWith cfg4).busy = false ∧
    (facing [hostWrite cfg4 (Slot.limb 15 3).offset 7#64] (State.resetWith cfg4)).schedule =
      [.bus (.write (cfg4.base + (Slot.limb 15 3).offset) 8 7#64)] :=
  ⟨trivial, trivial, trivial, show 3 < 4 by decide, rfl, rfl, rfl, rfl⟩

/-- A good state with a command in flight and written registers: BusyStatusReadShowsNoFlags, StepKeepsGoodState. -/
theorem test_witness_good_busy_state :
    let s := inFlight 0x10201#64 [hostRead cfg3 0x18] (with01 cfg3 [5#64, 0#64] [6#64, 0#64])
    s.Inv ∧ s.busy = true ∧ s.schedule = [.bus (.read (s.config.base + 0x0018) 8)] ∧ (nextState? (step s)).isSome :=
  ⟨⟨by decide, by decide, fun _ => rfl, fun h => absurd rfl h, by decide, by decide, by decide, fun h => nomatch h⟩,
    rfl, rfl, by decide⟩

/-! ## Witnesses: reset and the whole machine -/

theorem test_witness_ResetInputResets :
    (inFlight 1#64 [.assertReset] (State.resetWith cfg3)).schedule = [.assertReset] ∧
    (facing [.releaseReset] (resetTo true (State.resetWith cfg3))).schedule = [.releaseReset] ∧
    (facing [.releaseReset] (resetTo true (State.resetWith cfg3))).resetAsserted = true := by decide

/-- RegistersChangeOnlyAsStated: a step that changes the registers. -/
theorem test_witness_RegistersChangeOnlyAsStated :
    let s := facing [hostWrite cfg3 0x100 2#64] (State.resetWith cfg3)
    (nextState? (step s)).map (fun t => t.vregs == s.vregs) = some false := by decide

/-- ErrorAndFlagsPersist: an acceptance that clears ERR, a good state whose command ends with an error, and a read
that is neither an acceptance, an execution nor a reset. -/
theorem test_witness_ErrorAndFlagsPersist :
    let u := raise .capacity (facing [hostWrite cfg3 0x10 0#64] (State.resetWith cfg3))
    let s := inFlight 0#64 [.execute] (State.resetWith cfg3)
    let v := raise .capacity (facing [hostRead cfg3 0x10] (State.resetWith cfg3))
    (u.busy = false ∧ u.writesNext 0x10 0#64 ∧ (nextState? (step u)).map (·.status.err) = some .noError) ∧
    (s.Inv ∧ s.executesNext ∧ (nextState? (step s)).map (·.status.err) = some .illegalOpcode) ∧
    (¬ v.executesNext ∧ ¬ v.resetNext ∧ ¬ (∃ w, v.writesNext 0x10 w) ∧
      (nextState? (step v)).map (·.status.err) = some .capacity) := by
  refine ⟨⟨rfl, ⟨[], rfl⟩, by decide⟩,
    ⟨⟨by decide, by decide, fun _ => rfl, fun h => absurd rfl h, by decide, by decide, by decide, fun h => nomatch h⟩,
      ⟨rfl, .inr ⟨[], rfl⟩⟩, by decide⟩, ?_, ?_, ?_, by decide⟩
  · rintro ⟨h, _⟩; exact nomatch h
  · rintro ⟨_, h | ⟨h, _⟩⟩ <;> exact nomatch h
  · rintro ⟨_, _, h⟩; exact nomatch h

/-- StickyBitsChangeOnlyAsStated: steps that set and clear each bit. -/
theorem test_witness_StickyBitsChangeOnlyAsStated :
    let s := inFlight 0#64 [hostWrite cfg3 0x10 0#64] (State.resetWith cfg3)
    let u := inFlight 0#64 [hostWrite cfg3 0x100 0#64] (State.resetWith cfg3)
    let v := facing [hostWrite cfg3 0x18 0x30000#64] (dropCommand (dropRegisterWrite (State.resetWith cfg3)))
    (s.status.ovr = false ∧ (nextState? (step s)).map (·.status.ovr) = some true) ∧
    (u.status.wbusy = false ∧ (nextState? (step u)).map (·.status.wbusy) = some true) ∧
    (v.status.ovr = true ∧ (nextState? (step v)).map (·.status.ovr) = some false) ∧
    (v.status.wbusy = true ∧ (nextState? (step v)).map (·.status.wbusy) = some false) := by decide

/-- CmdReadsTheLastAcceptedWord, BusyFollowsTheCommand: steps that are an acceptance, an execution, a reset and a read
while busy. -/
theorem test_witness_acceptance_and_completion :
    (nextState? (step (facing [hostWrite cfg3 0x10 7#64] (State.resetWith cfg3)))).map
      (fun t => (t.cmdLast, t.busy)) = some (7#64, true) ∧
    (nextState? (step (inFlight 7#64 [] (State.resetWith cfg3)))).map (·.busy) = some false ∧
    (nextState? (step (inFlight 7#64 [.assertReset] (State.resetWith cfg3)))).map
      (fun t => (t.cmdLast, t.busy)) = some (0#64, false) ∧
    (nextState? (step (inFlight 7#64 [hostRead cfg3 0] (State.resetWith cfg3)))).map (·.busy) = some true := by decide

/-- AccessesLeaveInFlightCommandAlone: a dropped write while busy. -/
theorem test_witness_AccessesLeaveInFlightCommandAlone :
    let s := inFlight 0x10201#64 [hostWrite cfg3 0x100 0#64] (with01 cfg3 [5#64, 0#64] [])
    s.busy = true ∧ s.schedule = [.bus (.write 0x100 8 0#64)] ∧ (nextState? (step s)).isSome := by decide

/-- PendingCommandExecutes: a run with a poll before the execution step. -/
theorem test_witness_PendingCommandExecutes :
    let s := inFlight 0x10201#64 [hostRead cfg3 0x18] (with01 cfg3 [5#64, 0#64] [6#64, 0#64])
    s.pend = some 0x10201#64 ∧ (∀ e ∈ s.schedule, e ≠ .assertReset ∧ e ≠ .releaseReset) ∧
    ∀ n ≤ s.schedule.length + 1, (nextState? (core.run n s)).isSome := by decide

/-! ## Witnesses: the arithmetic laws -/

/-- Well-formed operands of every law: short and full-length negatives, both zeros, the most negative values, and
operands of one length and of two. -/
theorem test_witness_WF :
    ∀ v ∈ [[0#64, 0#64], [0#64, b1], [b1, 0#64], [b1, b1], [1#64, 0#64], [0#64, 0#64, b1], [5#64, 0#64, 0#64],
      [b1, b1, 0#64]], WF 3 v = true := by decide

/-- SignedValueLaw: the ends of the range of two limbs; two lists of one length with one value are one list. -/
theorem test_witness_SignedValueLaw :
    signedValue [0#64, b1] = -((radix : Int) ^ 1) ∧ signedValue [b1, 0#64] = (radix : Int) ^ 1 - 1 ∧
    -((radix : Int) ^ (lenMin - 1)) ≤ -(1000000000000000000 : Int) ∧
    (999999999999999999 : Int) ≤ (radix : Int) ^ (lenMin - 1) - 1 := by decide

/-- EffectiveOperandValue, SumValueLaw, SumIsExactUnlessFlagged, SignLimbOverflowLaw, GrowthLaw: a negative operand of
full length, one zero-filled, a sum that grows, and one whose sign limb is B-2. -/
theorem test_witness_sum_clauses :
    (isNegative [0#64, b1] = true ∧ [0#64, b1].length < [5#64, 0#64, 0#64].length ∧
      (addCore [5#64, 0#64, 0#64] [0#64, b1]).zfill = true ∧ (addCore [0#64, b1] [5#64, 0#64, 0#64]).zfill = true) ∧
    (signLimb (addCore [b1, 0#64] [1#64, 0#64]).r ≠ badSign ∧ (addCore [b1, 0#64] [1#64, 0#64]).grow = true ∧
      (radix : Int) ^ 1 ≤ effectiveValue [b1, 0#64] 2 + effectiveValue [1#64, 0#64] 2) ∧
    (signLimb (addCore [0#64, b1] [b1, b1]).r = badSign ∧
      signedValue [0#64, b1] + signedValue [b1, b1] < -((radix : Int) ^ 1)) := by decide

/-- NegateLaw, DoubleNegationLaw, SubtractLaw, SubtractOfNonNegativeLaw, SelfSubtractionLaw, DifferenceSignLaw: the most
negative value, zero, and subtrahends shorter than, equal to and longer than the minuend. -/
theorem test_witness_negate_and_subtract_clauses :
    [0#64, b1] = mostNegative 2 ∧ [0#64, 0#64] ≠ mostNegative 2 ∧ (∀ x ∈ [0#64, 0#64], x = 0#64) ∧
    isNegative [b1, b1, 0#64] = false ∧ isNegative [1#64, 0#64] = false ∧ 0 < signedValue [1#64, 0#64] ∧
    (subCore [b1, b1, 0#64] [1#64, 0#64]).zfill = true ∧ (subCore [1#64, 0#64] [b1, b1, 0#64]).zfill = false ∧
    signLimb (subCore [1#64, 0#64] [b1, b1, 0#64]).r ≠ badSign := by
  refine ⟨?_, ?_, by simp, ?_, ?_, ?_, ?_, ?_, ?_⟩ <;> decide

/-- CommittedResultIsWellFormedUnlessSignbad and UnflaggedCommandsAreExact: committed results with SIGNBAD 1 and with no
flag, one of each operation. -/
theorem test_witness_committed_results :
    (nextState? (exec (.add 2 0 1) (with01 cfg3 [0#64, b1] [0#64, b1]))).map (fun t => (t.status.err, t.status.signbad)) =
      some (.noError, true) ∧
    ∀ i ∈ [Instr.add 2 0 1, .neg 2 0, .sub 2 0 1],
      (nextState? (exec i (with01 cfg3 [5#64, 0#64] [6#64, 0#64]))).map
        (fun t => (t.status.err, t.status.zfill, t.status.signbad)) = some (.noError, false, false) := by decide

/-- RenderOfParse: "0", eighteen digits, and nineteen. -/
theorem test_witness_RenderOfParse :
    canonicalDigits [0] = true ∧ canonicalDigits (9 :: List.replicate 17 9) = true ∧
    canonicalDigits (1 :: List.replicate 18 0) = true := by decide

/-- The program P5 of 95_test_vectors.md: its three interleavings differ only in where the execution step falls. Here,
the step that falls before the host's write leaves the write undropped. -/
theorem test_schedule_decides_interleaving :
    let s := with01 cfg3 [2#64, 0#64] [3#64, 0#64]
    let w := hostWrite cfg3 0x1000000 9#64
    (nextState? (core.run 2 (inFlight 0x10201#64 [w, .execute] s))).map (fun t => (t.value? 0, t.status.wbusy)) =
      some (some [2#64, 0#64], true) ∧
    (nextState? (core.run 2 (inFlight 0x10201#64 [.execute, w] s))).map (fun t => (t.value? 0, t.status.wbusy)) =
      some (some [9#64, 0#64], false) := by decide

end Sys2Proof.Machine
end

section
/-! SUPPORT. The values of well-formed limb lists (R11 to R13): a list as magnitude limbs and a sign limb, the one list
of a length with a value, and the list of a value. -/

namespace Sys2Proof.Machine

/-- R13 on a list written as magnitude limbs and a sign limb. -/
theorem WF_append_iff {m : Nat} {d : List Limb} {x : Limb} :
    WF m (d ++ [x]) = true ↔
      (1 ≤ d.length ∧ d.length + 1 ≤ m) ∧ (∀ y ∈ d, y.toNat < radix) ∧ (x = 0#64 ∨ x = maxLimb) := by
  simp [WF_iff]

@[simp] theorem isNegative_append_zero (d : List Limb) : isNegative (d ++ [0#64]) = false := by
  rw [isNegative, signLimb_append]; decide

@[simp] theorem isNegative_append_maxLimb (d : List Limb) : isNegative (d ++ [maxLimb]) = true := by
  simp [isNegative]

@[simp] theorem unsignedValue_append_zero (d : List Limb) : unsignedValue (d ++ [0#64]) = unsignedValue d := by
  simp [unsignedValue_append, unsignedValue]

/-- The sign limb B-1 stands for the digit B-1 at its position. -/
theorem unsignedValue_append_maxLimb (d : List Limb) :
    (unsignedValue (d ++ [maxLimb]) : Int) = unsignedValue d + (radix : Int) ^ d.length * (radix - 1) := by
  simp [unsignedValue_append, unsignedValue, radix]

/-- A list with sign limb 0 has the unsigned value of its magnitude limbs (R12). -/
@[simp] theorem signedValue_append_zero (d : List Limb) : signedValue (d ++ [0#64]) = unsignedValue d := by
  have h : ¬ (0#64 : Limb) = maxLimb := by decide
  simp [signedValue, h]

/-- A list with sign limb B-1 has that value less B^(n-1) (R12). -/
@[simp] theorem signedValue_append_maxLimb (d : List Limb) :
    signedValue (d ++ [maxLimb]) = unsignedValue d - (radix : Int) ^ d.length := by
  simp only [signedValue, signLimb_append, if_true, unsignedValue_append_maxLimb, List.length_append,
    List.length_singleton, pow_succ]
  ring

/-- R12: the value is U of the magnitude limbs, less B^(n-1) when the list is negative. -/
theorem signedValue_eq {d : List Limb} {x : Limb} (hx : x = 0#64 ∨ x = maxLimb) :
    signedValue (d ++ [x]) =
      unsignedValue d - (if isNegative (d ++ [x]) = true then (radix : Int) ^ d.length else 0) := by
  rcases hx with rfl | rfl <;> simp

/-- R12, sign extension: a copy of the sign limb appended changes no value. -/
theorem signedValue_append_signLimb {d : List Limb} {x : Limb} (hx : x = 0#64 ∨ x = maxLimb) :
    signedValue (d ++ [x] ++ [x]) = signedValue (d ++ [x]) := by
  rcases hx with rfl | rfl
  · simp only [signedValue_append_zero, unsignedValue_append_zero]
  · simp only [signedValue_append_maxLimb, unsignedValue_append_maxLimb, List.length_append, List.length_singleton,
      pow_succ]
    ring

/-- The range of the unsigned value, in the integers. -/
theorem unsignedValue_range {d : List Limb} (hd : ∀ y ∈ d, y.toNat < radix) :
    0 ≤ (unsignedValue d : Int) ∧ (unsignedValue d : Int) < (radix : Int) ^ d.length :=
  ⟨Int.natCast_nonneg _, by exact_mod_cast unsignedValue_lt hd⟩

/-- Lists of one length with limbs below B and one unsigned value are equal. -/
theorem unsignedValue_inj {u v : List Limb} (hu : ∀ x ∈ u, x.toNat < radix) (hv : ∀ x ∈ v, x.toNat < radix)
    (hlen : u.length = v.length) (h : unsignedValue u = unsignedValue v) : u = v := by
  induction u generalizing v with
  | nil => exact (List.length_eq_zero_iff.1 hlen.symm).symm
  | cons x u ih =>
    obtain _ | ⟨y, v⟩ := v
    · simp at hlen
    · obtain ⟨hx, hu⟩ := List.forall_mem_cons.1 hu
      obtain ⟨hy, hv⟩ := List.forall_mem_cons.1 hv
      simp only [unsignedValue, radix] at h hx hy
      have hxy : x = y := BitVec.eq_of_toNat_eq (by omega)
      rw [hxy, ih hu hv (by simpa using hlen) (by omega)]

/-- The sign of a well-formed list's value decides its sign limb, and the value its magnitude limbs (R12). -/
theorem signedValue_inj {d e : List Limb} {x y : Limb} (hd : ∀ z ∈ d, z.toNat < radix)
    (he : ∀ z ∈ e, z.toNat < radix) (hx : x = 0#64 ∨ x = maxLimb) (hy : y = 0#64 ∨ y = maxLimb) (hlen : d.length = e.length)
    (h : signedValue (d ++ [x]) = signedValue (e ++ [y])) : d ++ [x] = e ++ [y] := by
  obtain ⟨hd0, hd1⟩ := unsignedValue_range hd
  obtain ⟨he0, he1⟩ := unsignedValue_range he
  rw [← hlen] at he1
  have same (hu : (unsignedValue d : Int) = unsignedValue e) : d = e :=
    unsignedValue_inj hd he hlen (by exact_mod_cast hu)
  rcases hx with rfl | rfl <;> rcases hy with rfl | rfl <;>
    simp only [signedValue_append_zero, signedValue_append_maxLimb, ← hlen] at h
  · rw [same h]
  · omega
  · omega
  · rw [same (by omega)]

/-- The `n` low base-B limbs of a number. -/
def limbsOfNat : Nat → Nat → List Limb
  | 0, _ => []
  | n + 1, x => BitVec.ofNat 64 (x % radix) :: limbsOfNat n (x / radix)

@[simp] theorem limbsOfNat_length (n x : Nat) : (limbsOfNat n x).length = n := by
  induction n generalizing x with
  | zero => rfl
  | succ n ih => simp [limbsOfNat, ih]

theorem toNat_ofNat_mod_radix (x : Nat) : (BitVec.ofNat 64 (x % radix)).toNat = x % radix := by
  rw [BitVec.toNat_ofNat]; simp only [radix]; omega

theorem limbsOfNat_lt (n x : Nat) : ∀ y ∈ limbsOfNat n x, y.toNat < radix := by
  induction n generalizing x with
  | zero => simp [limbsOfNat]
  | succ n ih =>
    refine List.forall_mem_cons.2 ⟨?_, ih _⟩
    rw [toNat_ofNat_mod_radix]; exact Nat.mod_lt _ radix_pos

/-- A number below B^n is the unsigned value of its `n` limbs. -/
theorem unsignedValue_limbsOfNat {n x : Nat} (h : x < radix ^ n) : unsignedValue (limbsOfNat n x) = x := by
  induction n generalizing x with
  | zero => simp at h; simp [limbsOfNat, unsignedValue, h]
  | succ n ih =>
    have hq : x / radix < radix ^ n := Nat.div_lt_of_lt_mul (by rwa [← pow_succ'])
    rw [limbsOfNat, unsignedValue, ih hq, toNat_ofNat_mod_radix, Nat.mod_add_div]

/-- R12: every integer from -B^k to B^k - 1 is the value of a list of k magnitude limbs and a sign limb. -/
theorem exists_signedValue_eq {k : Nat} {x : Int} (hlo : -((radix : Int) ^ k) ≤ x) (hhi : x < (radix : Int) ^ k) :
    ∃ d s, d.length = k ∧ (∀ y ∈ d, y.toNat < radix) ∧ (s = 0#64 ∨ s = maxLimb) ∧ signedValue (d ++ [s]) = x := by
  have value {z : Int} (h0 : 0 ≤ z) (h1 : z < (radix : Int) ^ k) : (unsignedValue (limbsOfNat k z.toNat) : Int) = z := by
    rw [unsignedValue_limbsOfNat (by zify; rwa [Int.toNat_of_nonneg h0]), Int.toNat_of_nonneg h0]
  by_cases hx : 0 ≤ x
  · exact ⟨limbsOfNat k x.toNat, 0#64, by simp, limbsOfNat_lt _ _, .inl rfl, by
      rw [signedValue_append_zero, value hx hhi]⟩
  · exact ⟨limbsOfNat k (x + (radix : Int) ^ k).toNat, maxLimb, by simp, limbsOfNat_lt _ _, .inr rfl, by
      rw [signedValue_append_maxLimb, value (by omega) (by omega), limbsOfNat_length]; ring⟩

/-- Settles O44: each part on the list written as magnitude limbs and a sign limb. -/
theorem signedValueLaw : Obligations.SignedValueLaw := by
  refine ⟨fun m a ha => ?_, fun m a b ha hb hlen h => ?_, fun n x hn hlo hhi => ?_⟩
  · obtain ⟨d, s, rfl, -, hd, hs⟩ := WF_split ha
    obtain ⟨h0, h1⟩ := unsignedValue_range hd
    have hv := signedValue_eq (d := d) hs
    simp only [List.length_append, List.length_singleton, Nat.add_sub_cancel, List.dropLast_concat, signLimb_append]
    refine ⟨?_, ?_, hv, signedValue_append_signLimb hs⟩ <;> rw [hv] <;> split <;> omega
  · obtain ⟨d, s, rfl, -, hd, hs⟩ := WF_split ha
    obtain ⟨e, t, rfl, -, he, ht⟩ := WF_split hb
    exact signedValue_inj hd he hs ht (by simpa using hlen) h
  · obtain ⟨d, s, hlen, hd, hs, hv⟩ := exists_signedValue_eq hlo (by omega)
    simp only [lenMin] at hn
    exact ⟨d ++ [s], by simp; omega, WF_append_iff.2 ⟨by omega, hd, hs⟩, hv⟩

end Sys2Proof.Machine
end

section
/-! SUPPORT. The reference codec (R16, R17): the digits of a number and their value, the limbs of a digit string, and
rendering limb by limb against rendering all limbs at 18 digits. -/

namespace Sys2Proof.Machine

/-! ## Digits and their value -/

/-- The library's value of a digit list, on which its lemmas apply. -/
theorem digitsValue_eq_ofDigits (l : List (Fin 10)) : digitsValue l = Nat.ofDigits 10 (l.map Fin.val) := by
  induction l with
  | nil => rfl
  | cons d l ih => simp [digitsValue, Nat.ofDigits_cons, ih]

theorem digitsValue_append (u v : List (Fin 10)) :
    digitsValue (u ++ v) = digitsValue u + 10 ^ u.length * digitsValue v := by
  simp [digitsValue_eq_ofDigits, Nat.ofDigits_append]

theorem digitsValue_lt (l : List (Fin 10)) : digitsValue l < 10 ^ l.length := by
  have h : ∀ x ∈ l.map Fin.val, x < 10 := by
    intro x hx
    obtain ⟨d, -, rfl⟩ := List.mem_map.1 hx
    exact d.isLt
  simpa [digitsValue_eq_ofDigits] using Nat.ofDigits_lt_base_pow_length (by decide) h

@[simp] theorem lowDigits_length (k n : Nat) : (lowDigits k n).length = k := by
  induction k generalizing n with
  | zero => rfl
  | succ k ih => simp [lowDigits, ih]

@[simp] theorem lowDigits_zero (k : Nat) : lowDigits k 0 = List.replicate k 0 := by
  induction k with
  | zero => rfl
  | succ k ih => simp [lowDigits, ih, List.replicate_succ]

/-- The low digits of a number that digits write are those digits, filled up with zeros. -/
theorem lowDigits_digitsValue {k : Nat} {l : List (Fin 10)} (h : l.length ≤ k) :
    lowDigits k (digitsValue l) = l ++ List.replicate (k - l.length) 0 := by
  induction l generalizing k with
  | nil => simp [digitsValue]
  | cons d l ih =>
    obtain _ | k := k
    · simp at h
    · have hd : Fin.ofNat 10 (d.val + 10 * digitsValue l) = d := Fin.ext (by simp [Nat.mod_eq_of_lt d.isLt])
      have hq : (d.val + 10 * digitsValue l) / 10 = digitsValue l := by omega
      rw [digitsValue, lowDigits, hd, hq, ih (Nat.le_of_succ_le_succ h), List.length_cons, Nat.succ_sub_succ,
        List.cons_append]

/-- A number below 10^k is written by its `k` low digits. -/
theorem digitsValue_lowDigits {k n : Nat} (h : n < 10 ^ k) : digitsValue (lowDigits k n) = n := by
  induction k generalizing n with
  | zero => simp at h; simp [lowDigits, digitsValue, h]
  | succ k ih =>
    have hq : n / 10 < 10 ^ k := Nat.div_lt_of_lt_mul (by rwa [← pow_succ'])
    simp [lowDigits, digitsValue, ih hq, Nat.mod_add_div]

/-! ## parse -/

theorem digitsValue_chunk_lt (l : List (Fin 10)) : digitsValue (l.take magnitude) < radix :=
  (digitsValue_lt _).trans_le (Nat.pow_le_pow_right (by decide) (List.length_take_le _ _))

/-- The limb of one chunk holds the chunk's value. -/
theorem toNat_chunk (l : List (Fin 10)) :
    (BitVec.ofNat 64 (digitsValue (l.take magnitude))).toNat = digitsValue (l.take magnitude) := by
  rw [BitVec.toNat_ofNat, Nat.mod_eq_of_lt ((digitsValue_chunk_lt l).trans (by decide))]

/-- The fuel left after a chunk bounds the digits left. -/
theorem length_drop_magnitude_le {fuel : Nat} {d : Fin 10} {l : List (Fin 10)} (h : (d :: l).length ≤ fuel + 1) :
    ((d :: l).drop magnitude).length ≤ fuel := by
  simp only [List.length_cons, List.length_drop, magnitude] at h ⊢; omega

@[simp] theorem chunkLimbs_nil (fuel : Nat) : chunkLimbs fuel [] = [] := by cases fuel <;> rfl

theorem chunkLimbs_lt (fuel : Nat) (l : List (Fin 10)) : ∀ x ∈ chunkLimbs fuel l, x.toNat < radix := by
  fun_induction chunkLimbs fuel l with
  | case1 => simp
  | case2 => simp
  | case3 fuel d l ih => exact List.forall_mem_cons.2 ⟨(toNat_chunk (d :: l)).trans_lt (digitsValue_chunk_lt _), ih⟩

/-- One limb for every 18 digits, the last chunk possibly shorter (R16). -/
theorem chunkLimbs_length {fuel : Nat} {l : List (Fin 10)} (h : l.length ≤ fuel) :
    (chunkLimbs fuel l).length = (l.length + 17) / 18 := by
  fun_induction chunkLimbs fuel l with
  | case1 l => simp [List.length_eq_zero_iff.1 (Nat.le_zero.1 h)]
  | case2 => rfl
  | case3 fuel d l ih =>
    rw [List.length_cons, ih (length_drop_magnitude_le h)]
    simp only [List.length_cons, List.length_drop, magnitude]
    omega

/-- The limbs of a digit string have the value the digits write (R16). -/
theorem unsignedValue_chunkLimbs {fuel : Nat} {l : List (Fin 10)} (h : l.length ≤ fuel) :
    unsignedValue (chunkLimbs fuel l) = digitsValue l := by
  fun_induction chunkLimbs fuel l with
  | case1 l => simp [List.length_eq_zero_iff.1 (Nat.le_zero.1 h), unsignedValue, digitsValue]
  | case2 => rfl
  | case3 fuel d l ih =>
    have hsplit := digitsValue_append ((d :: l).take magnitude) ((d :: l).drop magnitude)
    rw [List.take_append_drop] at hsplit
    rw [unsignedValue, toNat_chunk (d :: l), ih (length_drop_magnitude_le h), hsplit]
    rcases le_total (d :: l).length magnitude with hshort | hlong
    · simp [List.drop_eq_nil_of_le hshort, digitsValue]
    · rw [List.length_take_of_le hlong]; rfl

/-- Every limb written in 18 digits, the limbs give the digit string back, filled up with zeros at its high end. -/
theorem flatMap_lowDigits_chunkLimbs {fuel : Nat} {l : List (Fin 10)} (h : l.length ≤ fuel) :
    ∃ k, (chunkLimbs fuel l).flatMap (fun x => lowDigits magnitude x.toNat) = l ++ List.replicate k 0 := by
  fun_induction chunkLimbs fuel l with
  | case1 l => exact ⟨0, by simp [List.length_eq_zero_iff.1 (Nat.le_zero.1 h)]⟩
  | case2 => exact ⟨0, rfl⟩
  | case3 fuel d l ih =>
    obtain ⟨k, hk⟩ := ih (length_drop_magnitude_le h)
    rw [List.flatMap_cons, toNat_chunk (d :: l), lowDigits_digitsValue (List.length_take_le _ _)]
    rcases le_total (d :: l).length magnitude with hshort | hlong
    · refine ⟨magnitude - (d :: l).length, ?_⟩
      rw [List.take_of_length_le hshort, List.drop_eq_nil_of_le hshort, chunkLimbs_nil, List.flatMap_nil,
        List.append_nil]
    · refine ⟨k, ?_⟩
      rw [hk, List.length_take_of_le hlong, Nat.sub_self, List.replicate_zero, List.append_nil, ← List.append_assoc,
        List.take_append_drop]

/-! ## render -/

@[simp] theorem paddedDigits_zero : paddedDigits 0#64 = List.replicate magnitude 0 := by
  simp [paddedDigits]

/-- A nonzero limb below B has a digit other than 0 among its 18. -/
theorem exists_paddedDigits_ne_zero {x : Limb} (hx : x.toNat < radix) (h0 : x ≠ 0#64) :
    ∃ d ∈ paddedDigits x, d ≠ 0 := by
  by_contra hall
  push Not at hall
  have hz : lowDigits magnitude x.toNat = List.replicate magnitude 0 :=
    List.eq_replicate_iff.2 ⟨lowDigits_length _ _, fun d hd => hall d (List.mem_reverse.2 hd)⟩
  have hv : x.toNat = digitsValue (List.replicate magnitude 0) := by rw [← hz, digitsValue_lowDigits hx]
  exact h0 (BitVec.eq_of_toNat_eq hv)

theorem dropLeadingZeros_replicate_append (k : Nat) (ds : List (Fin 10)) :
    dropLeadingZeros (List.replicate k 0 ++ ds) = dropLeadingZeros ds := by
  rw [dropLeadingZeros, List.dropWhile_append_of_pos (by simp)]; rfl

/-- Past the first nonzero digit nothing is dropped. -/
theorem dropLeadingZeros_append {u : List (Fin 10)} (h : ∃ d ∈ u, d ≠ 0) (v : List (Fin 10)) :
    dropLeadingZeros (u ++ v) = dropLeadingZeros u ++ v := by
  have hne : u.dropWhile (· == 0) ≠ [] := by simpa [List.dropWhile_eq_nil_iff] using h
  obtain ⟨d, w, hw⟩ := List.exists_cons_of_ne_nil hne
  simp [dropLeadingZeros, List.dropWhile_append, hw]

/-- Canonical digits have no zero to drop (R16, R18). -/
theorem dropLeadingZeros_of_canonical {ds : List (Fin 10)} (h : canonicalDigits ds = true) : dropLeadingZeros ds = ds := by
  obtain _ | ⟨d, rest⟩ := ds
  · cases h
  · by_cases hd : d = 0
    · obtain rfl : rest = [] := by simpa [canonicalDigits, hd] using h
      subst hd; rfl
    · simp [dropLeadingZeros, hd]

/-- R17's rule, high limb and lower limbs apart, comes to writing every limb in 18 digits and dropping the leading
zeros. -/
theorem magnitudeDigits_eq {c : List Limb} (hc : ∀ x ∈ c, x.toNat < radix) (s : Limb) :
    magnitudeDigits (c ++ [s]) = dropLeadingZeros (c.reverse.flatMap paddedDigits) := by
  rw [magnitudeDigits, List.dropLast_concat]
  have hr : ∀ x ∈ c.reverse, x.toNat < radix := fun x hx => hc x (List.mem_reverse.1 hx)
  generalize c.reverse = r at hr ⊢
  induction r with
  | nil => rfl
  | cons x r ih =>
    obtain ⟨hx, hr⟩ := List.forall_mem_cons.1 hr
    by_cases h0 : x = 0#64
    · simpa [h0, dropLeadingZeros_replicate_append] using ih hr
    · simp [h0, dropLeadingZeros_append (exists_paddedDigits_ne_zero hx h0)]

/-- The limbs from the highest down, each in 18 digits most-significant first: the digits of all limbs from the lowest
up, reversed. -/
theorem flatMap_paddedDigits_reverse (c : List Limb) :
    c.reverse.flatMap paddedDigits = (c.flatMap fun x => lowDigits magnitude x.toNat).reverse := by
  rw [List.reverse_flatMap]; rfl

/-- Rendering the limbs of a canonical string gives its digits (R17). -/
theorem magnitudeDigits_chunkLimbs {ds : List (Fin 10)} (h : canonicalDigits ds = true) (s : Limb) :
    magnitudeDigits (chunkLimbs ds.length ds.reverse ++ [s]) = ds := by
  obtain ⟨k, hk⟩ := flatMap_lowDigits_chunkLimbs (fuel := ds.length) (l := ds.reverse) (by simp)
  rw [magnitudeDigits_eq (chunkLimbs_lt _ _), flatMap_paddedDigits_reverse, hk, List.reverse_append, List.reverse_reverse,
    List.reverse_replicate, dropLeadingZeros_replicate_append, dropLeadingZeros_of_canonical h]

theorem parse_of_canonical {ds : List (Fin 10)} (h : canonicalDigits ds = true) :
    parse ds = some (chunkLimbs ds.length ds.reverse ++ [0#64]) := by
  rw [parse, if_pos h]

theorem render_append_zero (c : List Limb) : render (c ++ [0#64]) = some ⟨false, magnitudeDigits (c ++ [0#64])⟩ := by
  rw [render, signLimb_append, if_pos rfl]

theorem length_pos_of_canonical {ds : List (Fin 10)} (h : canonicalDigits ds = true) : 0 < ds.length :=
  List.length_pos_of_ne_nil (by rintro rfl; cases h)

/-- Settles O60: length, range and value of the chunks, and rendering all of them at 18 digits. -/
theorem renderOfParse : Obligations.RenderOfParse := by
  intro ds h
  have hlen : (chunkLimbs ds.length ds.reverse).length = (ds.length + 17) / 18 := by
    simpa using chunkLimbs_length (fuel := ds.length) (l := ds.reverse) (by simp)
  have hpos := length_pos_of_canonical h
  refine ⟨_, parse_of_canonical h, by simp [hlen], ?_, isNegative_append_zero _, ?_, ?_⟩
  · rw [WF_append_iff]
    exact ⟨⟨by omega, by simp⟩, chunkLimbs_lt _ _, .inl rfl⟩
  · rw [signedValue_append_zero, unsignedValue_chunkLimbs (by simp)]
  · rw [render_append_zero, magnitudeDigits_chunkLimbs h]

end Sys2Proof.Machine
end

section
/-! SUPPORT. The address map (R53) read both ways, what a step on an access to a listed word answers, and what a write can
do (R55, R120, R141, R142). -/

namespace Sys2Proof.Machine

/-! ## The address map -/

/-- A word the map gives at an aligned offset is listed, and has that offset (R53). -/
theorem slotAt_sound {m off : Nat} {slot : Slot} (ha : off % 8 = 0) (h : slotAt m off = some slot) :
    slot.listed m ∧ slot.offset = off := by
  unfold slotAt lenBase limbBase limbStride at h
  dsimp only at h
  split_ifs at h with h0 h8 h16 h24 hlen hlimb hi <;> cases h
  · exact ⟨trivial, h0.symm⟩
  · exact ⟨trivial, h8.symm⟩
  · exact ⟨trivial, h16.symm⟩
  · exact ⟨trivial, h24.symm⟩
  · have : 256 + 8 * ((off - 256) / 8 % 16) = off := by omega
    exact ⟨trivial, this⟩
  · have : 16777216 + 524288 * ((off - 16777216) / 524288 % 16) + 8 * ((off - 16777216) % 524288 / 8) = off := by omega
    exact ⟨hi, this⟩

/-- The map gives a listed word at its offset (R53). -/
theorem slotAt_offset {c : Config} {slot : Slot} (h : slot.listed c.maxLimbs) :
    slotAt c.maxLimbs slot.offset = some slot := by
  have hm := maxLimbs_lt c
  cases slot with
  | id | radix | cmd | status => rfl
  | len k =>
    have hk := k.isLt
    have hq : (256 + 8 * k.val - 256) / 8 = k.val := by omega
    unfold slotAt Slot.offset lenBase
    dsimp only
    rw [if_neg (by omega), if_neg (by omega), if_neg (by omega), if_neg (by omega), if_pos (by omega), hq,
      Fin.ofNat_val_eq_self]
  | limb k i =>
    have hk := k.isLt
    have hi : i < c.maxLimbs := h
    have hq : (16777216 + 524288 * k.val + 8 * i - 16777216) / 524288 = k.val := by omega
    have hr : (16777216 + 524288 * k.val + 8 * i - 16777216) % 524288 / 8 = i := by omega
    unfold slotAt Slot.offset lenBase limbBase limbStride
    dsimp only
    rw [if_neg (by omega), if_neg (by omega), if_neg (by omega), if_neg (by omega), if_neg (by omega), if_pos (by omega),
      hq, hr, if_pos hi, Fin.ofNat_val_eq_self]

theorem Slot.offset_mod_eight (slot : Slot) : slot.offset % 8 = 0 := by
  cases slot <;> simp only [Slot.offset, lenBase, limbBase, limbStride] <;> omega

/-- Listed words lie in the window (R50, R53). -/
theorem Slot.offset_lt_windowSize {c : Config} {slot : Slot} (h : slot.listed c.maxLimbs) :
    slot.offset < windowSize := by
  have hm := maxLimbs_lt c
  cases slot with
  | id | radix | cmd | status => simp [Slot.offset, windowSize]
  | len k =>
    have hk := k.isLt
    simp only [Slot.offset, lenBase, windowSize]; omega
  | limb k i =>
    have hk := k.isLt
    have hi : i < c.maxLimbs := h
    simp only [Slot.offset, limbBase, limbStride, windowSize]; omega

/-- R53: no two listed words share an offset. -/
theorem Slot.offset_inj {c : Config} {slot slot' : Slot} (h : slot.listed c.maxLimbs) (h' : slot'.listed c.maxLimbs)
    (he : slot.offset = slot'.offset) : slot = slot' :=
  Option.some.inj (by rw [← slotAt_offset h, he, slotAt_offset h'])

/-- An access reaches a mapped word exactly when it is 8 bytes wide, at that word's address, and the map lists the word
(R50 to R54). -/
theorem locate_eq_ok_iff {c : Config} {a : BusAccess} {slot : Slot} :
    locate c a = .ok slot ↔ a.width = 8 ∧ a.addr = c.base + slot.offset ∧ slot.listed c.maxLimbs := by
  constructor
  · intro h
    unfold locate at h
    split_ifs at h with hin hwidth halign
    split at h <;> cases h
    rename_i hs
    obtain ⟨hl, ho⟩ := slotAt_sound (by omega) hs
    exact ⟨by omega, by omega, hl⟩
  · rintro ⟨hw, ha, hl⟩
    have hin := Slot.offset_lt_windowSize hl
    have hmod := slot.offset_mod_eight
    unfold locate
    rw [ha, Nat.add_sub_cancel_left, if_neg (by omega), if_neg (by omega), if_neg (by omega), slotAt_offset hl]


/-! ## Accesses to a listed word -/

/-- A read of a listed word that has a value returns it (R59). -/
theorem step_read {s : State} {slot : Slot} {rest : List Event} {w : Word64} (hr : s.resetAsserted = false)
    (hl : slot.listed s.config.maxLimbs) (hs : s.schedule = .bus (.read (s.config.base + slot.offset) 8) :: rest)
    (hw : readSlot s slot = some w) :
    step s = .next { s with schedule := rest, responses := .data w :: s.responses } := by
  have hw' : readSlot { s with schedule := rest } slot = some w := by cases slot <;> exact hw
  rw [step_bus_located hs hr (locate_eq_ok_iff.2 ⟨rfl, rfl, hl⟩), accessSlot, hw']
  rfl

/-- A write of a listed word does what `writeSlot` says (R55). -/
theorem step_write {s : State} {slot : Slot} {rest : List Event} {w : Word64} (hr : s.resetAsserted = false)
    (hl : slot.listed s.config.maxLimbs) (hs : s.schedule = .bus (.write (s.config.base + slot.offset) 8 w) :: rest) :
    step s = .next (respond .done (writeSlot { s with schedule := rest } w slot)) :=
  step_bus_located hs hr (locate_eq_ok_iff.2 ⟨rfl, rfl, hl⟩)

/-- At most one write comes next, and to one listed word (R53). -/
theorem writesNext_unique {s : State} {slot slot' : Slot} {w w' : Word64} (hl : slot.listed s.config.maxLimbs)
    (hl' : slot'.listed s.config.maxLimbs) (h : s.writesNext slot.offset w) (h' : s.writesNext slot'.offset w') :
    slot' = slot ∧ w' = w := by
  obtain ⟨rest, h⟩ := h
  obtain ⟨rest', h'⟩ := h'
  rw [h] at h'
  simp only [List.cons.injEq, Event.bus.injEq, BusAccess.write.injEq, Nat.add_left_cancel_iff, true_and] at h'
  obtain ⟨⟨ho, hw⟩, -⟩ := h'
  exact ⟨Slot.offset_inj hl' hl ho.symm, hw.symm⟩

/-! ## What a write can do -/

section WriteSlot
variable (w : Word64) {s : State}

/-- A CMD write while BUSY = 0 is accepted (R120). -/
theorem writeSlot_cmd_idle (h : s.busy = false) : writeSlot s w .cmd = accept w s := by
  rw [writeSlot, h]; rfl

/-- A CMD write while BUSY = 1 is dropped (R141). -/
theorem writeSlot_cmd_busy (h : s.busy = true) : writeSlot s w .cmd = dropCommand s := by
  rw [writeSlot, h]; rfl

/-- A LEN write while BUSY = 0 stores bits [15:0] (R22). -/
theorem writeSlot_len_idle (h : s.busy = false) (k : Fin 16) :
    writeSlot s w (.len k) = s.setVReg k { s.vreg k with len := w.setWidth 16 } := by
  rw [writeSlot, h]; rfl

/-- A LIMB write while BUSY = 0 stores the word (R23). -/
theorem writeSlot_limb_idle (h : s.busy = false) (k : Fin 16) (i : Nat) :
    writeSlot s w (.limb k i) = s.setVReg k { s.vreg k with limbs := LimbStore.put (s.vreg k).limbs i w } := by
  rw [writeSlot, h]; rfl

/-- A LEN or LIMB write while BUSY = 1 is dropped (R142). -/
theorem writeSlot_register_busy (h : s.busy = true) {slot : Slot} (hslot : slot.isRegisterWord) :
    writeSlot s w slot = dropRegisterWrite s := by
  cases slot with
  | id | radix | cmd | status => cases hslot
  | len k | limb k i => rw [writeSlot, h]; rfl

/-- What a write of `w` to `slot` in state `s` can be: an acceptance, a dropped command, a LEN or LIMB write that lands,
one that is dropped, a STATUS write, or a write to ID or RADIX, which changes nothing (R55). -/
inductive WriteCase (s : State) (w : Word64) : Slot → State → Prop
  | accepted (hb : s.busy = false) : WriteCase s w .cmd (accept w s)
  | commandDropped (hb : s.busy = true) : WriteCase s w .cmd (dropCommand s)
  | lenStored (hb : s.busy = false) (k : Fin 16) :
      WriteCase s w (.len k) (s.setVReg k { s.vreg k with len := w.setWidth 16 })
  | limbStored (hb : s.busy = false) (k : Fin 16) (i : Nat) :
      WriteCase s w (.limb k i) (s.setVReg k { s.vreg k with limbs := LimbStore.put (s.vreg k).limbs i w })
  | lenDropped (hb : s.busy = true) (k : Fin 16) : WriteCase s w (.len k) (dropRegisterWrite s)
  | limbDropped (hb : s.busy = true) (k : Fin 16) (i : Nat) : WriteCase s w (.limb k i) (dropRegisterWrite s)
  | statusWritten : WriteCase s w .status { s with status := s.status.hostWrite w }
  | idIgnored : WriteCase s w .id s
  | radixIgnored : WriteCase s w .radix s

theorem writeSlot_case (s : State) (slot : Slot) : WriteCase s w slot (writeSlot s w slot) := by
  cases slot with
  | id => exact .idIgnored
  | radix => exact .radixIgnored
  | status => exact .statusWritten
  | cmd =>
    cases hb : s.busy
    · exact writeSlot_cmd_idle w hb ▸ .accepted hb
    · exact writeSlot_cmd_busy w hb ▸ .commandDropped hb
  | len k =>
    cases hb : s.busy
    · exact writeSlot_len_idle w hb k ▸ .lenStored hb k
    · exact writeSlot_register_busy w hb (slot := .len k) trivial ▸ .lenDropped hb k
  | limb k i =>
    cases hb : s.busy
    · exact writeSlot_limb_idle w hb k i ▸ .limbStored hb k i
    · exact writeSlot_register_busy w hb (slot := .limb k i) trivial ▸ .limbDropped hb k i

end WriteSlot

/-! ## What a write does to each field -/

section Fields
variable (s : State)

@[simp] theorem dropCommand_vregs : (dropCommand s).vregs = s.vregs := rfl
@[simp] theorem dropCommand_pend : (dropCommand s).pend = s.pend := rfl
@[simp] theorem dropCommand_cmdLast : (dropCommand s).cmdLast = s.cmdLast := rfl
@[simp] theorem dropCommand_status : (dropCommand s).status = { s.status with ovr := true } := rfl

@[simp] theorem dropRegisterWrite_vregs : (dropRegisterWrite s).vregs = s.vregs := rfl
@[simp] theorem dropRegisterWrite_pend : (dropRegisterWrite s).pend = s.pend := rfl
@[simp] theorem dropRegisterWrite_cmdLast : (dropRegisterWrite s).cmdLast = s.cmdLast := rfl
@[simp] theorem dropRegisterWrite_status : (dropRegisterWrite s).status = { s.status with wbusy := true } := rfl

end Fields

section Slots
variable (k : Fin 16) (i : Nat)

@[simp] theorem isRegisterWord_len : (Slot.len k).isRegisterWord := trivial
@[simp] theorem isRegisterWord_limb : (Slot.limb k i).isRegisterWord := trivial
@[simp] theorem not_isRegisterWord_id : ¬ Slot.id.isRegisterWord := id
@[simp] theorem not_isRegisterWord_radix : ¬ Slot.radix.isRegisterWord := id
@[simp] theorem not_isRegisterWord_cmd : ¬ Slot.cmd.isRegisterWord := id
@[simp] theorem not_isRegisterWord_status : ¬ Slot.status.isRegisterWord := id

end Slots

namespace WriteCase
variable {s t : State} {w : Word64} {slot : Slot}

theorem config_eq (h : WriteCase s w slot t) : t.config = s.config := by cases h <;> rfl

/-- PEND changes only by an acceptance (R120). -/
theorem pend_eq (h : WriteCase s w slot t) : t.pend = if slot = .cmd ∧ s.busy = false then some w else s.pend := by
  cases h <;> simp_all

/-- CMD_last changes only by an acceptance (R31). -/
theorem cmdLast_eq (h : WriteCase s w slot t) :
    t.cmdLast = if slot = .cmd ∧ s.busy = false then w else s.cmdLast := by
  cases h <;> simp_all

/-- The registers change only by a LEN or LIMB write while BUSY = 0 (R142). -/
theorem vregs_eq (h : WriteCase s w slot t) (hn : ¬ (slot.isRegisterWord ∧ s.busy = false)) : t.vregs = s.vregs := by
  cases h <;> simp_all

/-- An acceptance clears ERR and the result flags (R120). -/
theorem clear (h : WriteCase s w .cmd t) (hb : s.busy = false) : t.status.clear := by
  cases h
  · rfl
  · simp_all

/-- ERR and the result flags change only by an acceptance (R29). -/
theorem flags_eq (h : WriteCase s w slot t) (hn : ¬ (slot = .cmd ∧ s.busy = false)) :
    { t.status with ovr := s.status.ovr, wbusy := s.status.wbusy } = s.status := by
  cases h <;> simp_all [Status.hostWrite]

/-- A write leaves OVR = 1 if it is a dropped command, or OVR was 1 and it is no STATUS write that clears it (R30). -/
theorem ovr_iff (h : WriteCase s w slot t) : t.status.ovr = true ↔
    (slot = .cmd ∧ s.busy = true) ∨ (s.status.ovr = true ∧ ¬ (slot = .status ∧ w.getLsbD 16 = true)) := by
  cases h <;> simp_all [Status.hostWrite, Status.cleared]

/-- A write leaves WBUSY = 1 if it is a dropped register write, or WBUSY was 1 and it is no STATUS write that clears it
(R30). -/
theorem wbusy_iff (h : WriteCase s w slot t) : t.status.wbusy = true ↔
    (slot.isRegisterWord ∧ s.busy = true) ∨ (s.status.wbusy = true ∧ ¬ (slot = .status ∧ w.getLsbD 17 = true)) := by
  cases h <;> simp_all [Status.hostWrite, Status.cleared]

end WriteCase

end Sys2Proof.Machine
end

section
/-! SUPPORT. What a command that goes on answers, and what any step takes: execution, reset, a host write, or nothing that
touches the SMA. -/

namespace Sys2Proof.Machine

/-! ## Commands -/

/-- What STAGE held before an operation retires plays no part in it (R122). -/
theorem retire_setStage (rd : Fin 16) (c : CoreOut) (v : List Limb) (s : State) :
    retire rd c (s.setStage v) = retire rd c s := rfl

theorem OperationRuns.eq_retire {i : Instr} {s t : State} {c : CoreOut} (h : OperationRuns i s c t) :
    t = retire i.dest c s := by
  cases i with
  | add rd ra rb => obtain ⟨a, b, -, -, -, rfl⟩ := h; rfl
  | neg rd ra => obtain ⟨a, -, -, rfl⟩ := h; rfl
  | sub rd ra rb => obtain ⟨a, b, -, -, -, rfl⟩ := h; exact retire_setStage rd c _ s

/-- A command that goes on raised an error, or retired what its operation computes of its sources (R122). -/
theorem exec_cases {i : Instr} {s t : State} (h : exec i s = .next t) :
    (∃ e, e ≠ .noError ∧ t = raise e s) ∨ ∃ c, s.computes i c ∧ t = retire i.dest c s := by
  rcases exec_next h with ⟨-, rfl⟩ | ⟨_, -, rfl⟩ | ⟨c, h⟩
  · exact .inl ⟨.malformedA, nofun, rfl⟩
  · exact .inl ⟨.malformedB, nofun, rfl⟩
  · exact .inr ⟨c, h.computes, h.eq_retire⟩

theorem decodeErrCode_ne_noError (e : DecodeError) : decodeErrCode e ≠ .noError := by
  cases e <;> nofun

/-- An executed word that goes on raised an error, or retired what its operation computes (R122). -/
theorem execWord_cases {w : Word64} {s t : State} (h : execWord w s = .next t) :
    (∃ e, e ≠ .noError ∧ t = raise e s) ∨ ∃ i c, s.computes i c ∧ t = retire i.dest c s := by
  rcases execWord_next h with ⟨e, -, rfl⟩ | ⟨i, -, h⟩
  · exact .inl ⟨_, decodeErrCode_ne_noError e, rfl⟩
  · exact (exec_cases h).imp_right fun h => ⟨i, h⟩

/-- Retiring raises CAPACITY with the result held in STAGE, or commits (R122, R124, R126). -/
theorem retire_cases (rd : Fin 16) (c : CoreOut) (s : State) :
    (s.config.maxLimbs < c.r.length ∧ retire rd c s = raise .capacity (s.setStage c.r)) ∨
      (c.r.length ≤ s.config.maxLimbs ∧ Committed rd c s (retire rd c s)) :=
  (lt_or_ge s.config.maxLimbs c.r.length).imp (fun h => ⟨h, retire_capacity h⟩) fun h => ⟨h, retire_committed h⟩

theorem raise_keepsRest (e : ErrCode) (s : State) : KeepsRest s (raise e s) := (raise_errored e s).rest

theorem retire_keepsRest (rd : Fin 16) (c : CoreOut) (s : State) : KeepsRest s (retire rd c s) := by
  rcases retire_cases rd c s with ⟨-, h⟩ | ⟨-, h⟩
  · rw [h]; exact ⟨rfl, rfl, rfl, rfl, rfl, rfl, rfl⟩
  · exact h.rest

@[simp] theorem retire_pend (rd : Fin 16) (c : CoreOut) (s : State) : (retire rd c s).pend = none := by
  unfold retire; dsimp only; split <;> rfl

@[simp] theorem retire_stage (rd : Fin 16) (c : CoreOut) (s : State) : (retire rd c s).stage = c.r := by
  unfold retire; dsimp only; split <;> rfl

/-- A result that fits is put into the destination (R126), with the STATUS fields of R127. -/
theorem retire_of_le {rd : Fin 16} {c : CoreOut} {s : State} (h : c.r.length ≤ s.config.maxLimbs) :
    retire rd c s = { (s.setStage c.r).setValue rd c.r with status := s.status.completed c, pend := none } := by
  unfold retire; dsimp only; rw [if_neg (Nat.not_lt.2 h)]; rfl

/-- Retiring changes no register but the destination (R26). -/
theorem retire_vreg_ne {rd k : Fin 16} (h : k ≠ rd) (c : CoreOut) (s : State) :
    (retire rd c s).vreg k = s.vreg k := by
  rcases retire_cases rd c s with ⟨-, hr⟩ | ⟨-, hr⟩
  · rw [hr]; rfl
  · exact hr.others k h

/-- The frame of an executed word: KeepsRest, and BUSY cleared (R122). -/
theorem execWord_frame {w : Word64} {s t : State} (h : execWord w s = .next t) : KeepsRest s t ∧ t.pend = none := by
  rcases execWord_cases h with ⟨e, -, rfl⟩ | ⟨i, c, -, rfl⟩
  · exact ⟨raise_keepsRest e s, rfl⟩
  · exact ⟨retire_keepsRest _ c s, retire_pend _ c s⟩

/-! ## Steps -/

theorem State.executesNext.not_resetNext {s : State} (h : s.executesNext) : ¬ s.resetNext := by
  rintro ⟨rest, h' | ⟨h', -⟩⟩ <;> rcases h.2 with h | ⟨_, h⟩ <;> simp [h'] at h

theorem State.executesNext.not_writesNext {s : State} (h : s.executesNext) (off : Nat) (w : Word64) :
    ¬ s.writesNext off w := by
  rintro ⟨rest, h'⟩
  rcases h.2 with h | ⟨_, h⟩ <;> simp [h'] at h

theorem State.resetNext.not_writesNext {s : State} (h : s.resetNext) (off : Nat) (w : Word64) :
    ¬ s.writesNext off w := by
  rintro ⟨rest, h'⟩
  obtain ⟨_, h | ⟨h, -⟩⟩ := h <;> simp [h'] at h

/-- What a step from `s` to `t` takes: the pending command's execution; a reset; a host write of a listed word; or
nothing that touches the SMA (a read, an execution step with nothing pending, a release of a reset input that is not
asserted). Each comes with the others excluded. -/
inductive StepCase (s t : State) : Prop
  | execution (hx : s.executesNext) (w : Word64) (hp : s.pend = some w) (h : execWord w s.popped = .next t)
  | reset (hr : s.resetNext) (level : Bool) (h : t = resetTo level s.popped)
  | write (slot : Slot) (w : Word64) (hl : slot.listed s.config.maxLimbs) (hw : s.writesNext slot.offset w)
      (hn : s.resetAsserted = false) (u : State) (hu : WriteCase s.popped w slot u) (h : t = respond .done u)
  | quiet (hx : ¬ s.executesNext) (hr : ¬ s.resetNext) (hw : ∀ off w, ¬ s.writesNext off w)
      (rs : List Response) (h : t = { s.popped with responses := rs })

theorem step_case {s t : State} (h : step s = .next t) : StepCase s t := by
  rcases step_next h with ⟨hx, w, hp, h⟩ | ⟨hp, hs, rfl⟩ | ⟨hr, level, h⟩ | ⟨⟨rest, hs⟩, hn, rfl⟩ |
    ⟨addr, width, slot, w, rest, hs, hn, -, -, rfl⟩ | ⟨addr, width, w, slot, rest, hs, hn, hl, rfl⟩
  · exact .execution hx w hp h
  · refine .quiet (by simp [State.executesNext, hp]) ?_ ?_ _ rfl <;>
      rcases hs with hs | ⟨rest, hs⟩ <;> simp [State.resetNext, State.writesNext, hs]
  · exact .reset hr level h
  · exact .quiet (by simp [State.executesNext, hs]) (by simp [State.resetNext, hs, hn])
      (by simp [State.writesNext, hs]) _ rfl
  · exact .quiet (by simp [State.executesNext, hs]) (by simp [State.resetNext, hs])
      (by simp [State.writesNext, hs]) _ rfl
  · obtain ⟨hwidth, haddr, hlisted⟩ := locate_eq_ok_iff.1 hl
    obtain rfl : width = 8 := hwidth
    obtain rfl : addr = s.config.base + slot.offset := haddr
    exact .write slot w hlisted ⟨rest, hs⟩ hn _ (writeSlot_case w s.popped slot) rfl

section WritesNext
variable {s : State} {slot : Slot} {w : Word64}

theorem State.writesNext.not_executesNext {off : Nat} (h : s.writesNext off w) : ¬ s.executesNext :=
  fun hx => hx.not_writesNext _ _ h

theorem State.writesNext.not_resetNext {off : Nat} (h : s.writesNext off w) : ¬ s.resetNext :=
  fun hr => hr.not_writesNext _ _ h

variable (hl : slot.listed s.config.maxLimbs) (hw : s.writesNext slot.offset w)
include hl hw

/-- Where a write comes next, a write of `w'` to a listed word is next exactly when it is that one. -/
theorem writesNext_iff {slot' : Slot} (hl' : slot'.listed s.config.maxLimbs) (w' : Word64) :
    s.writesNext slot'.offset w' ↔ slot' = slot ∧ w' = w :=
  ⟨writesNext_unique hl hl' hw, by rintro ⟨rfl, rfl⟩; exact hw⟩

theorem writesNext_cmd_iff (w' : Word64) : s.writesNext 0x0010 w' ↔ .cmd = slot ∧ w' = w :=
  writesNext_iff (slot' := .cmd) hl hw trivial w'

theorem writesNext_status_iff (w' : Word64) : s.writesNext 0x0018 w' ↔ .status = slot ∧ w' = w :=
  writesNext_iff (slot' := .status) hl hw trivial w'

theorem registerWriteNext_iff :
    (∃ (slot' : Slot) (w' : Word64), slot'.isRegisterWord ∧ slot'.listed s.config.maxLimbs ∧
      s.writesNext slot'.offset w') ↔ slot.isRegisterWord := by
  constructor
  · rintro ⟨slot', w', hslot, hl', hw'⟩
    exact (writesNext_unique hl hl' hw hw').1 ▸ hslot
  · exact fun hslot => ⟨slot, w, hslot, hl, hw⟩

/-- A step that takes a host write of a listed word answers what that write does, and the response. -/
theorem writeCase_of_writesNext {t : State} (h : step s = .next t) :
    ∃ u, WriteCase s.popped w slot u ∧ t = respond .done u := by
  cases step_case h with
  | execution hx => exact absurd hx hw.not_executesNext
  | reset hr => exact absurd hr hw.not_resetNext
  | write slot' w' hl' hw' hn u hu h =>
    obtain ⟨rfl, rfl⟩ := writesNext_unique hl' hl hw' hw
    exact ⟨u, hu, h⟩
  | quiet hx hr hnw => exact absurd hw (hnw _ _)

end WritesNext

end Sys2Proof.Machine
end

section
/-! SUPPORT. The invariant of good states: reset establishes it, commands and writes keep it, and so does every step. -/

namespace Sys2Proof.Machine

/-- A status is clear when ERR and the six result flags are 0 (R29). -/
theorem Status.clear_iff {st : Status} : st.clear ↔ st.err = .noError ∧ st.cout = false ∧ st.grow = false ∧
    st.neg = false ∧ st.zero = false ∧ st.signbad = false ∧ st.zfill = false := by
  cases st; simp [Status.clear, Status.cleared, Status.reset]

/-- The invariant speaks of the SMA's own state: the parameters, the registers, STATUS, PEND, CMD_last, STAGE and the
reset input. -/
theorem State.Inv.congr {s : State} (hi : s.Inv) (es : List Event) (rs : List Response) :
    { s with schedule := es, responses := rs }.Inv where
  limbs_canonical := hi.limbs_canonical
  limbs_in_range := hi.limbs_in_range
  busy_clear := hi.busy_clear
  error_clear := hi.error_clear
  sign_flags := hi.sign_flags
  zero_flag := hi.zero_flag
  stage_size := hi.stage_size
  in_reset h := by
    have h' := hi.in_reset h
    obtain ⟨c, vregs, st, p, l, g, b, es', rs'⟩ := s
    simp only [resetTo, State.resetWith, State.mk.injEq] at h' ⊢
    simp [h']

theorem State.Inv.popped {s : State} (hi : s.Inv) : s.popped.Inv := hi.congr _ _

theorem State.Inv.respond {s : State} (hi : s.Inv) (r : Response) : (respond r s).Inv := hi.congr _ _

/-- Every state that `resetTo` answers is good (R37, R170). -/
theorem inv_resetTo (level : Bool) (s : State) : (resetTo level s).Inv where
  limbs_canonical k := by simpa [VReg.reset] using LimbStore.wf_nil
  limbs_in_range k := by simp [VReg.reset]
  busy_clear := by simp
  error_clear := by simp [Status.reset]
  sign_flags := by simp [Status.reset]
  zero_flag := by simp [Status.reset]
  stage_size := by simp
  in_reset h := by cases h; rfl

theorem inv_resetWith (c : Config) : (State.resetWith c).Inv := inv_resetTo false (State.resetWith c)

/-- Settles O36: both are states that a reset leaves. -/
theorem resetStateIsGood : Obligations.ResetStateIsGood :=
  ⟨inv_resetWith _, inv_resetWith⟩

section Keeps
variable {s : State} (hi : s.Inv) (hn : s.resetAsserted = false)
include hi hn

/-- A change of one register's length or words keeps a state good, if the words stay canonical and in range. -/
theorem State.Inv.setVReg (k : Fin 16) {r : VReg} (hwf : r.limbs.wf)
    (hrange : ∀ p ∈ r.limbs, p.1 < s.config.maxLimbs) : (s.setVReg k r).Inv where
  limbs_canonical j := by
    rw [vreg_setVReg]; split
    · exact hwf
    · exact hi.limbs_canonical j
  limbs_in_range j := by
    rw [vreg_setVReg]; split
    · exact hrange
    · exact hi.limbs_in_range j
  busy_clear := hi.busy_clear
  error_clear := hi.error_clear
  sign_flags := hi.sign_flags
  zero_flag := hi.zero_flag
  stage_size := hi.stage_size
  in_reset h := by simp [hn] at h

/-- OVR and WBUSY play no part in the invariant. -/
theorem State.Inv.sticky (ovr wbusy : Bool) :
    { s with status := { s.status with ovr := ovr, wbusy := wbusy } }.Inv where
  limbs_canonical := hi.limbs_canonical
  limbs_in_range := hi.limbs_in_range
  busy_clear h := by
    have := Status.clear_iff.1 (hi.busy_clear h)
    exact Status.clear_iff.2 this
  error_clear h := by
    have := Status.clear_iff.1 (hi.error_clear h)
    exact Status.clear_iff.2 this
  sign_flags := hi.sign_flags
  zero_flag := hi.zero_flag
  stage_size := hi.stage_size
  in_reset h := by simp [hn] at h

/-- Acceptance keeps a state good: it clears ERR and the result flags (R120). -/
theorem State.Inv.accept (w : Word64) : (accept w s).Inv where
  limbs_canonical := hi.limbs_canonical
  limbs_in_range := hi.limbs_in_range
  busy_clear _ := rfl
  error_clear h := absurd rfl h
  sign_flags := by simp [Status.cleared, Status.reset]
  zero_flag := by simp [Status.cleared, Status.reset]
  stage_size := hi.stage_size
  in_reset h := by simp [hn] at h

/-- Every write of a listed word keeps a state good (R55). -/
theorem State.Inv.write {w : Word64} {slot : Slot} {t : State} (hl : slot.listed s.config.maxLimbs)
    (h : WriteCase s w slot t) : t.Inv := by
  cases h with
  | accepted hb => exact hi.accept hn w
  | commandDropped hb | lenDropped hb | limbDropped hb | statusWritten => exact hi.sticky hn _ _
  | lenStored hb k => exact hi.setVReg hn k (hi.limbs_canonical k) (hi.limbs_in_range k)
  | limbStored hb k i =>
    refine hi.setVReg hn k (LimbStore.wf_put (hi.limbs_canonical k) i w) fun p hp => ?_
    rcases LimbStore.mem_put hp with rfl | hp
    · exact hl
    · exact hi.limbs_in_range k p hp
  | idIgnored | radixIgnored => exact hi

end Keeps

/-! ## Commands -/

/-- An operation's result has at most MAXLIMBS + 2 limbs: one more than its operands, and SUB's negated subtrahend may have
one more than MAXLIMBS (R35, R124). -/
theorem State.computes.length_le {s : State} {i : Instr} {c : CoreOut} (h : s.computes i c) :
    c.r.length ≤ s.config.maxLimbs + 2 := by
  cases i with
  | add rd ra rb =>
    obtain ⟨a, b, ⟨-, ha⟩, ⟨-, hb⟩, rfl⟩ := h
    have := addCore_length_le a b
    have := (WF_iff.1 ha).1
    have := (WF_iff.1 hb).1
    omega
  | neg rd ra =>
    obtain ⟨a, ⟨-, ha⟩, rfl⟩ := h
    have hlen := (WF_iff.1 ha).1
    have := negCore_length_le hlen.1
    omega
  | sub rd ra rb =>
    obtain ⟨a, b, ⟨-, ha⟩, ⟨-, hb⟩, rfl⟩ := h
    have hlen := (WF_iff.1 hb).1
    have := addCore_length_le a (negCore b).r
    have := negCore_length_le hlen.1
    have := (WF_iff.1 ha).1
    simp only [subCore]
    omega

/-- A list whose limbs are all 0 has sign limb 0 (R127: ZERO excludes NEG and SIGNBAD). -/
theorem signLimb_eq_zero {v : List Limb} (h : ∀ x ∈ v, x = 0#64) : signLimb v = 0#64 := by
  obtain rfl | ⟨d, x, rfl⟩ := List.eq_nil_or_concat v
  · rfl
  · rw [List.concat_eq_append, signLimb_append]; exact h x (by simp)

section Commands
variable {s : State} (hi : s.Inv) (hb : s.busy = true)
include hi hb

/-- A command in flight in a good state finds reset not asserted (R170). -/
theorem State.Inv.resetAsserted_of_busy : s.resetAsserted = false := by
  by_contra h
  have h' := hi.in_reset (by simpa using h)
  rw [h'] at hb
  simp at hb

/-- An error in a good state leaves a good state: the result flags are 0 as acceptance left them (R150). -/
theorem State.Inv.raise (e : ErrCode) {v : List Limb} (hv : v.length ≤ s.config.maxLimbs + 2) :
    (raise e (s.setStage v)).Inv where
  limbs_canonical := hi.limbs_canonical
  limbs_in_range := hi.limbs_in_range
  busy_clear h := by simp at h
  error_clear _ := Status.clear_iff.2 ⟨rfl, (Status.clear_iff.1 (hi.busy_clear hb)).2⟩
  sign_flags := hi.sign_flags
  zero_flag := hi.zero_flag
  stage_size := hv
  in_reset h := by simp [hi.resetAsserted_of_busy hb] at h

/-- A commit in a good state leaves a good state (R126, R127). -/
theorem State.Inv.commit (rd : Fin 16) (c : CoreOut) (hlen : c.r.length ≤ s.config.maxLimbs) :
    (retire rd c s).Inv := by
  have hn := hi.resetAsserted_of_busy hb
  have hc := retire_committed (rd := rd) hlen
  have registers : (s.setValue rd c.r).Inv := by
    refine hi.setVReg hn rd (LimbStore.wf_putAll (hi.limbs_canonical rd) 0 c.r) fun p hp => ?_
    rcases LimbStore.mem_putAll hp with ⟨-, h⟩ | h
    · omega
    · exact hi.limbs_in_range rd p h
  have hv : (Machine.retire rd c s).vregs = (s.setValue rd c.r).vregs := by rw [retire_of_le hlen]; rfl
  exact
    { limbs_canonical := fun k => vreg_congr hv k ▸ registers.limbs_canonical k
      limbs_in_range := fun k => by rw [vreg_congr hv k, hc.rest.config]; exact registers.limbs_in_range k
      busy_clear := fun h => by simp at h
      error_clear := fun h => absurd hc.err h
      sign_flags := fun h => (hc.signbad.1 h.2).2 (hc.neg.1 h.1)
      zero_flag := fun h => by
        have h0 := signLimb_eq_zero (hc.zero.1 h)
        have hneg : ¬ signLimb c.r = maxLimb := by rw [h0]; decide
        exact ⟨by simpa using mt hc.neg.1 hneg, by simpa using mt hc.signbad.1 fun h => h.1 h0⟩
      stage_size := by rw [retire_stage, hc.rest.config]; omega
      in_reset := fun h => by simp [hc.rest.reset, hn] at h }

/-- Retiring a result in a good state leaves a good state, too long a result or not (R124, R126). -/
theorem State.Inv.retire (rd : Fin 16) {c : CoreOut} (hlen : c.r.length ≤ s.config.maxLimbs + 2) :
    (retire rd c s).Inv := by
  rcases retire_cases rd c s with ⟨-, h⟩ | ⟨hle, -⟩
  · exact h ▸ hi.raise hb .capacity hlen
  · exact hi.commit hb rd c hle

/-- Executing the word in flight keeps a state good (R122). -/
theorem State.Inv.execWord {w : Word64} {t : State} (h : execWord w s = .next t) : t.Inv := by
  rcases execWord_cases h with ⟨e, -, rfl⟩ | ⟨i, c, hc, rfl⟩
  · exact hi.raise hb e hi.stage_size
  · exact hi.retire hb i.dest hc.length_le

end Commands

/-- Settles O35, by the four things a step can take. -/
theorem stepKeepsGoodState : Obligations.StepKeepsGoodState := by
  intro s t hi h
  cases step_case h with
  | execution hx w hp h => exact hi.popped.execWord hx.1 h
  | reset hr level h => exact h ▸ inv_resetTo level s.popped
  | write slot w hl hw hn u hu h => exact h ▸ (hi.popped.write hn hl hu).respond .done
  | quiet hx hr hw rs h => exact h ▸ hi.congr _ rs

end Sys2Proof.Machine
end

section
/-! SUPPORT. The rules about the whole machine: what can change the registers, ERR and the result flags, the sticky bits,
CMD_last and BUSY. Each by the four things a step can take. -/

namespace Sys2Proof.Machine

/-- Settles O37: executions and resets are among the stated causes, and of the writes only one that lands changes a
register. -/
theorem registersChangeOnlyAsStated : Obligations.RegistersChangeOnlyAsStated := by
  intro s t h
  cases step_case h with
  | execution hx w hp h => exact ⟨(execWord_frame h).1.config, fun _ => .inl hx⟩
  | reset hr level h => exact ⟨h ▸ rfl, fun _ => .inr (.inl hr)⟩
  | write slot w hl hw hn u hu h =>
    subst h
    refine ⟨hu.config_eq, fun hne => .inr (.inr ?_)⟩
    by_contra hcon
    exact hne (hu.vregs_eq fun ⟨hslot, hb⟩ => hcon ⟨hb, slot, w, hslot, hl, hw⟩)
  | quiet hx hr hw rs h => exact ⟨h ▸ rfl, fun hne => absurd (h ▸ rfl) hne⟩

/-- Settles O38: acceptance clears, an error's flags are those of the good state it leaves (O35), and no other write
touches ERR or the flags. -/
theorem errorAndFlagsPersist : Obligations.ErrorAndFlagsPersist := by
  intro s t h
  refine ⟨fun hb => ?_, fun hi _ => (stepKeepsGoodState s t hi h).error_clear, fun hnx hnr hna => ?_⟩
  · rintro ⟨w, hw⟩
    obtain ⟨u, hu, rfl⟩ := writeCase_of_writesNext (slot := .cmd) trivial hw h
    exact hu.clear hb
  · cases step_case h with
    | execution hx => exact absurd hx hnx
    | reset hr => exact absurd hr hnr
    | write slot w hl hw hn u hu h =>
      subst h
      exact hu.flags_eq fun ⟨hslot, hb⟩ => hna ⟨hb, w, (writesNext_cmd_iff hl hw w).2 ⟨hslot.symm, rfl⟩⟩
    | quiet hx hr hw rs h => subst h; rfl

/-- Settles O39: commands keep both bits, reset clears them, and a write does what `ovr_iff` and `wbusy_iff` say. -/
theorem stickyBitsChangeOnlyAsStated : Obligations.StickyBitsChangeOnlyAsStated := by
  intro s t h
  cases step_case h with
  | execution hx w hp h =>
    have hrest := (execWord_frame h).1
    simp [hx.not_writesNext, hx.not_resetNext, hrest.ovr, hrest.wbusy]
  | reset hr level h =>
    subst h
    simp [hr.not_writesNext, hr, Status.reset]
  | write slot w hl hw hn u hu h =>
    subst h
    have hovr := hu.ovr_iff
    have hwbusy := hu.wbusy_iff
    simp only [writesNext_cmd_iff hl hw, writesNext_status_iff hl hw, registerWriteNext_iff hl hw, hw.not_resetNext,
      respond_status]
    refine ⟨fun hb ⟨_, hc, _⟩ => hovr.2 (.inl ⟨hc.symm, hb⟩), fun hb hslot => hwbusy.2 (.inl ⟨hslot, hb⟩), ?_, nofun,
      ?_, ?_, ?_, ?_⟩
    · rintro _ ⟨rfl, rfl⟩
      simp only [reduceCtorEq, false_and, false_or, true_and, not_isRegisterWord_status, popped_status] at hovr hwbusy
      grind
    all_goals grind [popped_status, popped_pend, busy_eq]
  | quiet hx hr hnw rs h =>
    subst h
    simp [hnw, hr]

/-- Settles O40: commands keep CMD_last, reset clears it, and of the writes only an acceptance changes it. -/
theorem cmdReadsTheLastAcceptedWord : Obligations.CmdReadsTheLastAcceptedWord := by
  intro s t h
  refine ⟨rfl, ?_⟩
  cases step_case h with
  | execution hx w hp h =>
    simp [hx.not_writesNext, hx.not_resetNext, (execWord_frame h).1.cmdLast]
  | reset hr level h =>
    subst h
    simp [hr.not_writesNext, hr]
  | write slot w hl hw hn u hu h =>
    subst h
    simp only [writesNext_cmd_iff hl hw, hw.not_resetNext, respond_cmdLast, respond_pend, hu.cmdLast_eq, hu.pend_eq]
    by_cases hslot : slot = .cmd
    · cases hb : s.pend <;> simp [hslot, hb]
    · simp [hslot, Ne.symm hslot]
  | quiet hx hr hnw rs h =>
    subst h
    simp [hnw, hr]

/-- Settles O41: an executed command and a reset leave nothing pending, and of the writes only an acceptance changes
PEND. -/
theorem busyFollowsTheCommand : Obligations.BusyFollowsTheCommand := by
  intro s t h
  cases step_case h with
  | execution hx w hp h =>
    simp [hx.not_writesNext, hx, hp, (execWord_frame h).2]
  | reset hr level h =>
    subst h
    simp [hr.not_writesNext, hr]
  | write slot w hl hw hn u hu h =>
    subst h
    simp only [writesNext_cmd_iff hl hw, hw.not_resetNext, hw.not_executesNext, busy_eq, respond_pend, hu.pend_eq]
    by_cases hslot : slot = .cmd
    · cases hb : s.pend <;> simp [hslot, hb]
    · simp +contextual [hslot, Ne.symm hslot]
  | quiet hx hr hnw rs h =>
    subst h
    simp [hnw, hr, hx, Option.isSome_iff_ne_none]

end Sys2Proof.Machine
end

section
/-! SUPPORT. Commands as functions of the state: their frame, and two states that differ only in stale limb words. -/

namespace Sys2Proof.Machine

/-- Settles O15: an error changes no register, and a retired result only the destination. -/
theorem commandChangesOnlyItsDestination : Obligations.CommandChangesOnlyItsDestination := by
  intro i s t h
  rcases exec_cases h with ⟨e, -, rfl⟩ | ⟨c, -, rfl⟩
  · exact ⟨fun _ _ => rfl, raise_keepsRest e s, rfl⟩
  · exact ⟨fun k hk => retire_vreg_ne hk c s, retire_keepsRest i.dest c s, by simp⟩

/-- Two outcomes alike: the same fault, or next states that differ at most in limb words at and above the lengths (and in
STAGE and what lies outside the SMA). -/
inductive AnswersAlike : Host.Outcome State Fault Refusal → Host.Outcome State Fault Refusal → Prop
  | next {t t' : State} (h : SameBelowLengths t t') : AnswersAlike (.next t) (.next t')
  | fault (f : Fault) : AnswersAlike (.fault f) (.fault f)

section Alike
variable {s s' : State} (h : SameBelowLengths s s')
include h

theorem SameBelowLengths.value?_eq (k : Fin 16) : s'.value? k = s.value? k := by
  rw [State.value?, State.value?, h.len k]
  exact LimbStore.words?_congr fun j hj => h.limbs k _ (by omega)

/-- The words a command reads lie below the length (R38). -/
theorem SameBelowLengths.operandWords?_eq (k : Fin 16) : s'.operandWords? k = s.operandWords? k := by
  rw [State.operandWords?, State.operandWords?, h.len k, h.config]
  exact LimbStore.words?_congr fun j hj => h.limbs k _ (by omega)

theorem SameBelowLengths.readOperand_eq (k : Fin 16) : readOperand s' k = readOperand s k := by
  rw [readOperand, readOperand, h.operandWords?_eq k, h.len k, h.config]

theorem SameBelowLengths.raise (e : ErrCode) : SameBelowLengths (raise e s) (raise e s') where
  config := h.config
  status := by simp [h.status]
  len := h.len
  limbs := h.limbs

theorem SameBelowLengths.setStage (v v' : List Limb) : SameBelowLengths (s.setStage v) (s'.setStage v') :=
  ⟨h.config, h.status, h.len, h.limbs⟩

/-- A result retired in two such states leaves two such states: the destination's words below its new length are the
result's in both. -/
theorem SameBelowLengths.retire (rd : Fin 16) (c : CoreOut) :
    SameBelowLengths (retire rd c s) (retire rd c s') := by
  rcases retire_cases rd c s with ⟨hlt, hr⟩ | ⟨hle, hc⟩
  · rw [hr, retire_capacity (by rw [h.config]; exact hlt)]
    exact (h.setStage c.r c.r).raise .capacity
  · have hle' : c.r.length ≤ s'.config.maxLimbs := by rw [h.config]; exact hle
    have hc' := retire_committed (rd := rd) hle'
    refine ⟨by rw [hc.rest.config, hc'.rest.config, h.config], ?_, fun k => ?_, fun k i hi => ?_⟩
    · rw [retire_of_le hle, retire_of_le hle', h.status]
    · by_cases hk : k = rd
      · subst hk; exact BitVec.eq_of_toNat_eq (by rw [hc.len, hc'.len])
      · rw [hc.others k hk, hc'.others k hk, h.len k]
    · by_cases hk : k = rd
      · subst hk
        have hw := (LimbStore.words?_eq_some_iff.1 hc.value).2 i hi
        have hw' := (LimbStore.words?_eq_some_iff.1 hc'.value).2 i (by rw [hc'.len, ← hc.len]; exact hi)
        simpa using hw'.trans hw.symm
      · rw [hc.others k hk] at hi ⊢
        rw [hc'.others k hk]
        exact h.limbs k i hi

theorem SameBelowLengths.withOperand (k : Fin 16) (e : ErrCode)
    {go go' : List Limb → Host.Outcome State Fault Refusal} (hgo : ∀ v, AnswersAlike (go v) (go' v)) :
    AnswersAlike (withOperand s k e go) (withOperand s' k e go') := by
  rw [Machine.withOperand, Machine.withOperand, h.readOperand_eq k]
  cases readOperand s k with
  | ok v => exact hgo v
  | malformed => exact .next (h.raise e)
  | unwritten => exact .fault _

theorem SameBelowLengths.exec (i : Instr) : AnswersAlike (exec i s) (exec i s') := by
  cases i with
  | add rd ra rb =>
    exact h.withOperand ra _ fun a => h.withOperand rb _ fun b => .next (h.retire rd (addCore a b))
  | neg rd ra => exact h.withOperand ra _ fun a => .next (h.retire rd (negCore a))
  | sub rd ra rb =>
    exact h.withOperand ra _ fun a => h.withOperand rb _ fun b => .next ((h.setStage _ _).retire rd (subCore a b))

end Alike

/-- Settles O18: the two states read the same operands, so they raise or retire the same. -/
theorem staleLimbsTakeNoPart : Obligations.StaleLimbsTakeNoPart := by
  intro i s s' h
  have ha := h.exec i
  generalize exec i s = o, exec i s' = o' at ha ⊢
  cases ha with
  | next ht => exact ⟨ht.status, fun k => ⟨ht.len k, ht.value?_eq k⟩⟩
  | fault f => rfl

end Sys2Proof.Machine
end

section
/-! SUPPORT. The registers of the bus window: identification, STATUS, LEN and LIMB words, and what they read as after
reset. -/

namespace Sys2Proof.Machine

/-! ## STATUS -/

/-- Settles O28: a bit or field is read off the concatenation by passing the fields below it. -/
theorem statusWordLayout : Obligations.StatusWordLayout := by
  refine ⟨⟨rfl, rfl, rfl, rfl, rfl, rfl⟩, fun s => ⟨rfl, ?_, ?_, ?_, ?_, ?_, ?_, ?_, ?_, ?_, ?_, ?_, ?_, ?_⟩⟩
  case refine_2 | refine_3 | refine_10 =>
    repeat refine (BitVec.extractLsb'_append_eq_of_le (by decide)).trans ?_
    exact BitVec.extractLsb'_append_eq_right
  case refine_13 =>
    repeat refine (BitVec.extractLsb'_append_eq_of_le (by decide)).trans ?_
    rfl
  all_goals
    simp only [State.statusWord, BitVec.getLsbD_append, BitVec.getLsbD_ofBool]
    simp

/-- Settles O29: the whole next state of a STATUS write. -/
theorem statusWriteClearsStickyBits : Obligations.StatusWriteClearsStickyBits := by
  intro s w rest hr hs
  rw [step_write (slot := .status) hr trivial hs]
  have hbit (old bit : Bool) : (old && !bit) = if bit then false else old := by cases old <;> cases bit <;> rfl
  simp only [writeSlot, Status.hostWrite, hbit]
  rfl

/-! ## ID and RADIX -/

/-- Settles O27: the ID word's fields are read off its number. -/
theorem identificationRegistersAreConstant : Obligations.IdentificationRegistersAreConstant := by
  intro s rest hr
  refine ⟨fun hs => ⟨idWord s.config, step_read (slot := .id) hr trivial hs rfl, ?_⟩,
    fun hs => step_read (slot := .radix) hr trivial hs rfl, ?_⟩
  · have hm := maxLimbs_lt s.config
    rw [idWord_toNat]
    omega
  · rintro w (hs | hs)
    · exact step_write (slot := .id) hr trivial hs
    · exact step_write (slot := .radix) hr trivial hs

/-! ## LEN and LIMB words -/

@[simp] theorem readSlot_respond (r : Response) (s : State) (slot : Slot) :
    readSlot (respond r s) slot = readSlot s slot := by
  cases slot <;> rfl

@[simp] theorem readSlot_schedule (s : State) (es : List Event) (slot : Slot) :
    readSlot { s with schedule := es } slot = readSlot s slot := by
  cases slot <;> rfl

/-- Bits [15:0] of a word, the others 0 (R22). -/
theorem setWidth_setWidth_eq_and (w : Word64) : (w.setWidth 16).setWidth 64 = w &&& 0xFFFF#64 := by
  apply BitVec.eq_of_toNat_eq
  rw [BitVec.toNat_and, BitVec.toNat_setWidth, BitVec.toNat_setWidth, show (0xFFFF#64).toNat = 2 ^ 16 - 1 from rfl,
    Nat.and_two_pow_sub_one_eq_mod]
  omega

section Stored
variable {s t : State} {w : Word64} {slot : Slot}

/-- A LEN or LIMB write while BUSY = 0 replaces one register. -/
theorem WriteCase.eq_setVReg (h : WriteCase s w slot t) (hb : s.busy = false) (hslot : slot.isRegisterWord) :
    ∃ k r, t = s.setVReg k r := by
  cases h with
  | lenStored _ k | limbStored _ k => exact ⟨k, _, rfl⟩
  | _ => simp_all

/-- A stored LEN word reads as bits [15:0] of what was written (R22). -/
theorem WriteCase.readSlot_len {k : Fin 16} (h : WriteCase s w (.len k) t) (hb : s.busy = false) :
    readSlot t (.len k) = some (w &&& 0xFFFF#64) := by
  cases h with
  | lenStored => simp [readSlot, VReg.lenWord, setWidth_setWidth_eq_and]
  | lenDropped hb' => simp_all

/-- A stored LIMB word reads as what was written (R23). -/
theorem WriteCase.readSlot_limb {k : Fin 16} {i : Nat} (h : WriteCase s w (.limb k i) t) (hb : s.busy = false) :
    readSlot t (.limb k i) = some w := by
  cases h with
  | limbStored => simp [readSlot]
  | limbDropped hb' => simp_all

/-- A stored LEN or LIMB word changes what no other mapped word reads as. -/
theorem WriteCase.readSlot_ne (h : WriteCase s w slot t) (hb : s.busy = false) (hslot : slot.isRegisterWord)
    {slot' : Slot} (hne : slot' ≠ slot) : readSlot t slot' = readSlot s slot' := by
  cases h with
  | lenStored _ k =>
    cases slot' with
    | id | radix | cmd | status => rfl
    | len j => simp_all [readSlot]
    | limb j i => by_cases hj : j = k <;> simp [readSlot, hj]
  | limbStored _ k i =>
    cases slot' with
    | id | radix | cmd | status => rfl
    | len j => by_cases hj : j = k <;> simp [readSlot, hj, VReg.lenWord]
    | limb j i' => by_cases hj : j = k <;> simp_all [readSlot]
  | _ => simp_all

end Stored

/-- Settles O31: the word written, and every other word, read after a register is replaced. -/
theorem registerWriteReadsBackWhileIdle : Obligations.RegisterWriteReadsBackWhileIdle := by
  intro s slot w rest hr hslot hl hb hs
  have hu := writeSlot_case w { s with schedule := rest } slot
  refine ⟨_, step_write hr hl hs, ?_, ?_, fun slot' hne => ?_, ?_⟩
  · rintro k rfl
    rw [readSlot_respond, hu.readSlot_len hb]
  · rintro k i rfl
    rw [readSlot_respond, hu.readSlot_limb hb]
  · rw [readSlot_respond, hu.readSlot_ne hb hslot hne, readSlot_schedule]
  · obtain ⟨k, r, ht⟩ := hu.eq_setVReg hb hslot
    rw [ht]
    exact ⟨rfl, rfl, rfl, rfl, rfl, rfl, rfl, rfl⟩

/-! ## Reset -/

/-- A command whose first source is malformed ends with MALFORMED_A (R122, R123). -/
theorem exec_malformedA {s : State} {i : Instr} (h : s.malformed i.sourceA) :
    exec i s = .next (raise .malformedA s) := by
  cases i with
  | add rd ra rb | neg rd ra | sub rd ra rb => exact withOperand_malformed _ _ h

/-- After reset every register is malformed: its length is 0 (R37). -/
theorem malformed_resetWith (c : Config) (k : Fin 16) : (State.resetWith c).malformed k := by
  simp [State.malformed, VReg.reset, lengthOk]

/-- Settles O33: each reset value, and every register malformed. -/
theorem resetLeavesTheResetValues : Obligations.ResetLeavesTheResetValues := by
  refine ⟨rfl, fun c => ⟨fun k => ⟨?_, fun i => ?_⟩, ?_, rfl, rfl, ?_, rfl, fun i => ?_⟩⟩
  · simp [readSlot, VReg.reset, VReg.lenWord]
  · simp [readSlot, VReg.reset, LimbStore.word?]
  · simp only [readSlot, statusWord_resetWith]
  · refine congrArg some (BitVec.eq_of_toNat_eq ?_)
    have hm := maxLimbs_lt c
    rw [show (State.resetWith c).config = c from rfl, idWord_toNat, BitVec.toNat_ofNat]
    omega
  · exact exec_malformedA (malformed_resetWith c _)

end Sys2Proof.Machine
end

section
/-! SUPPORT. The bus window as a host meets it: the address map, the accesses that fault, reads, and accesses while a
command is in flight. -/

namespace Sys2Proof.Machine

/-! ## The address map -/

/-- Settles O23: what the map gives is listed and at its offset, and the map gives every listed word. -/
theorem addressMapIsExact : Obligations.AddressMapIsExact :=
  fun _ _ _ ha => ⟨slotAt_sound ha, fun ⟨hl, ho⟩ => ho ▸ slotAt_offset hl⟩

/-! ## Accesses that fault -/

section Locate
variable {c : Config} {a : BusAccess} (hin : c.base ≤ a.addr ∧ a.addr - c.base < windowSize)
include hin

/-- Inside the window, an access that is not 8 bytes wide (R51). -/
theorem locate_busWidth (hw : a.width ≠ 8) : locate c a = .error .busWidth := by
  rw [locate, if_neg (not_not_intro hin), if_pos hw]

/-- Inside the window, an 8-byte access that is not aligned (R52). -/
theorem locate_busMisaligned (hw : a.width = 8) (ha : (a.addr - c.base) % 8 ≠ 0) :
    locate c a = .error .busMisaligned := by
  rw [locate, if_neg (not_not_intro hin), if_neg (not_not_intro hw), if_pos ha]

/-- Inside the window, an aligned 8-byte access to an offset of no listed word (R54). -/
theorem locate_busUnmapped (hw : a.width = 8) (ha : (a.addr - c.base) % 8 = 0)
    (hu : ∀ slot : Slot, slot.listed c.maxLimbs → slot.offset ≠ a.addr - c.base) :
    locate c a = .error .busUnmapped := by
  have hnone : slotAt c.maxLimbs (a.addr - c.base) = none :=
    Option.eq_none_iff_forall_ne_some.2 fun slot h =>
      have ⟨hl, ho⟩ := slotAt_sound ha h
      hu slot hl ho
  rw [locate, if_neg (not_not_intro hin), if_neg (not_not_intro hw), if_neg (not_not_intro ha), hnone]

end Locate

/-- Settles O24: the access reaches no word, so the step faults as `locate` does. -/
theorem badBusAccessFaults : Obligations.BadBusAccessFaults := by
  intro s a rest hr hs hlo hhi
  have hin : s.config.base ≤ a.addr ∧ a.addr - s.config.base < windowSize := ⟨hlo, by simp only [windowSize]; omega⟩
  exact ⟨fun hw => step_bus_fault hs hr (locate_busWidth hin hw),
    fun hw ha => step_bus_fault hs hr (locate_busMisaligned hin hw ha),
    fun hw ha hu => step_bus_fault hs hr (locate_busUnmapped hin hw ha hu)⟩

/-! ## Reads -/

/-- A read of a listed word that has no value faults (R38). -/
theorem step_read_unwritten {s : State} {slot : Slot} {rest : List Event} (hr : s.resetAsserted = false)
    (hl : slot.listed s.config.maxLimbs) (hs : s.schedule = .bus (.read (s.config.base + slot.offset) 8) :: rest)
    (hn : readSlot s slot = none) : step s = .fault .unwrittenRead := by
  rw [step_bus_located hs hr (locate_eq_ok_iff.2 ⟨rfl, rfl, hl⟩), accessSlot, readSlot_schedule, hn]

/-- The only words without a value are limb words not written since reset (R38). -/
theorem readSlot_eq_none_iff {s : State} {slot : Slot} :
    readSlot s slot = none ↔ ∃ k i, slot = .limb k i ∧ LimbStore.word? (s.vreg k).limbs i = none := by
  cases slot with
  | id | radix | cmd | status | len k => simp [readSlot]
  | limb k i =>
    refine ⟨fun h => ⟨k, i, rfl, h⟩, ?_⟩
    rintro ⟨_, _, ⟨⟩, h⟩
    exact h

/-- LEN[k] reads as the register's length (R22). -/
theorem readSlot_len (s : State) (k : Fin 16) :
    readSlot s (.len k) = some (BitVec.ofNat 64 (s.vreg k).len.toNat) := by
  rw [BitVec.ofNat_toNat]
  rfl

/-- A limb word below the length of a register with a value reads as the value's limb (R25). -/
theorem readSlot_limb_of_value? {s : State} {k : Fin 16} {v : List Limb} (h : s.value? k = some v) {i : Nat}
    (hi : i < v.length) : readSlot s (.limb k i) = v[i]? := by
  obtain ⟨hlen, hword⟩ := LimbStore.words?_eq_some_iff.1 h
  have hwi := hword i (hlen ▸ hi)
  rwa [Nat.zero_add] at hwi

/-- Settles O26: the two outcomes of the read, and what each word reads as. -/
theorem readHasNoSideEffect : Obligations.ReadHasNoSideEffect := by
  intro s slot rest hr hl hs
  refine ⟨fun w => step_read hr hl hs, step_read_unwritten hr hl hs, readSlot_eq_none_iff, rfl, rfl,
    readSlot_len s, fun _ _ => rfl, fun k v hv => ⟨?_, fun i => readSlot_limb_of_value? hv⟩⟩
  rw [readSlot_len, value?_length hv]

/-! ## Accesses while a command is in flight -/

/-- While BUSY = 1 an access that goes on changes nothing but the sticky bits and the host's record of responses (R62,
R141 to R143). -/
theorem busAccess_busy {s t : State} {a : BusAccess} (hb : s.busy = true) (h : busAccess a s = .next t) :
    ∃ ovr wbusy rs, t = { s with status := { s.status with ovr := ovr, wbusy := wbusy }, responses := rs } := by
  obtain ⟨-, slot, -, ha⟩ := busAccess_next h
  rcases accessSlot_next ha with ⟨-, -, -, -, -, rfl⟩ | ⟨-, -, w, -, rfl⟩
  · exact ⟨s.status.ovr, s.status.wbusy, _, rfl⟩
  · obtain ⟨ovr, wbusy, hw⟩ := writeSlot_busy hb w slot
    exact ⟨ovr, wbusy, _, by rw [hw]; rfl⟩

/-- Settles O42: none of the named fields is among those an access changes while BUSY = 1. -/
theorem accessesLeaveInFlightCommandAlone : Obligations.AccessesLeaveInFlightCommandAlone := by
  intro s t a rest hb hs h
  rw [step_cons hs] at h
  obtain ⟨ovr, wbusy, rs, rfl⟩ := busAccess_busy (s := { s with schedule := rest }) hb h
  exact ⟨rfl, rfl, rfl, rfl, rfl⟩

end Sys2Proof.Machine
end

section
/-! SUPPORT. The decoder and the encoder through the fields of the command format: what each sees of a word (R70 to
R76), and that a word is no more than its fields. -/

namespace Sys2Proof

/-! ## Fields and words -/

theorem regIndex_regField (r : Fin 16) : regIndex (regField r) = r :=
  Fin.ext (Nat.mod_eq_of_lt r.isLt)

theorem regField_regIndex (f : BitVec 4) : regField (regIndex f) = f :=
  BitVec.eq_of_toNat_eq (Nat.mod_eq_of_lt f.isLt)

/-- The five fields are adjacent and fill the word, so putting them together gives it back (R70). -/
theorem toWord_ofWord (w : Word64) : (Command.ofWord w).toWord = w := by
  simp only [Command.toWord, Command.ofWord]
  iterate 4 rw [BitVec.extractLsb'_append_extractLsb'_eq_extractLsb' (by rfl)]
  exact BitVec.extractLsb'_eq_self

/-- The fields of an operation's command word (R73). -/
def Instr.command : Instr → Command
  | .add rd ra rb => ⟨0x01#8, regField rd, regField ra, regField rb, 0#44⟩
  | .neg rd ra    => ⟨0x02#8, regField rd, regField ra, 0#4, 0#44⟩
  | .sub rd ra rb => ⟨0x03#8, regField rd, regField ra, regField rb, 0#44⟩

theorem encode_eq_toWord_command (i : Instr) : encode i = i.command.toWord := by
  cases i <;> rfl

/-! ## The decoder, case by case (R72) -/

section Cases
variable {w : Word64}

theorem decode_illegalOpcode
    (h : ¬ ((Command.ofWord w).opc = 1#8 ∨ (Command.ofWord w).opc = 2#8 ∨ (Command.ofWord w).opc = 3#8)) :
    decode w = .error .illegalOpcode := if_pos h

theorem decode_rsv_ne_zero
    (h : (Command.ofWord w).opc = 1#8 ∨ (Command.ofWord w).opc = 2#8 ∨ (Command.ofWord w).opc = 3#8)
    (hrsv : (Command.ofWord w).rsv ≠ 0#44) : decode w = .error .reservedField := by
  rw [decode, if_neg (not_not_intro h), if_pos hrsv]

theorem decode_neg_rb_ne_zero (h : (Command.ofWord w).opc = 2#8) (hrb : (Command.ofWord w).rb ≠ 0#4) :
    decode w = .error .reservedField := by
  by_cases hrsv : (Command.ofWord w).rsv = 0#44
  · simp [decode, h, hrsv, hrb]
  · exact decode_rsv_ne_zero (.inr (.inl h)) hrsv

theorem decode_add (h : (Command.ofWord w).opc = 1#8) (hrsv : (Command.ofWord w).rsv = 0#44) :
    decode w = .ok (.add (regIndex (Command.ofWord w).rd) (regIndex (Command.ofWord w).ra)
      (regIndex (Command.ofWord w).rb)) := by
  simp [decode, h, hrsv]

theorem decode_neg (h : (Command.ofWord w).opc = 2#8) (hrsv : (Command.ofWord w).rsv = 0#44)
    (hrb : (Command.ofWord w).rb = 0#4) :
    decode w = .ok (.neg (regIndex (Command.ofWord w).rd) (regIndex (Command.ofWord w).ra)) := by
  simp [decode, h, hrsv, hrb]

theorem decode_sub (h : (Command.ofWord w).opc = 3#8) (hrsv : (Command.ofWord w).rsv = 0#44) :
    decode w = .ok (.sub (regIndex (Command.ofWord w).rd) (regIndex (Command.ofWord w).ra)
      (regIndex (Command.ofWord w).rb)) := by
  simp [decode, h, hrsv]

end Cases

/-- A word decodes to an operation exactly when its fields are that operation's. -/
theorem decode_eq_ok_iff {w : Word64} {i : Instr} : decode w = .ok i ↔ Command.ofWord w = i.command := by
  constructor
  · intro h
    by_cases hopc : (Command.ofWord w).opc = 1#8 ∨ (Command.ofWord w).opc = 2#8 ∨ (Command.ofWord w).opc = 3#8
    · by_cases hrsv : (Command.ofWord w).rsv = 0#44
      · rcases hopc with h1 | h2 | h3
        · rw [decode_add h1 hrsv] at h
          cases h
          simp only [Instr.command, regField_regIndex, ← h1, ← hrsv]
        · by_cases hrb : (Command.ofWord w).rb = 0#4
          · rw [decode_neg h2 hrsv hrb] at h
            cases h
            simp only [Instr.command, regField_regIndex, ← h2, ← hrsv, ← hrb]
          · rw [decode_neg_rb_ne_zero h2 hrb] at h
            cases h
        · rw [decode_sub h3 hrsv] at h
          cases h
          simp only [Instr.command, regField_regIndex, ← h3, ← hrsv]
      · rw [decode_rsv_ne_zero hopc hrsv] at h
        cases h
    · rw [decode_illegalOpcode hopc] at h
      cases h
  · intro h
    cases i with
    | add rd ra rb => rw [decode_add] <;> simp [h, Instr.command, regIndex_regField]
    | neg rd ra => rw [decode_neg] <;> simp [h, Instr.command, regIndex_regField]
    | sub rd ra rb => rw [decode_sub] <;> simp [h, Instr.command, regIndex_regField]

/-! ## The fields as quotients and remainders -/

section Fields
variable (w : Word64)

theorem ofWord_opc_eq_iff (b : BitVec 8) : (Command.ofWord w).opc = b ↔ w.toNat % 256 = b.toNat := by
  rw [← BitVec.toNat_inj]
  simp [Command.ofWord]

theorem ofWord_rsv_eq_zero_iff : (Command.ofWord w).rsv = 0#44 ↔ w.toNat / 2 ^ 20 = 0 := by
  have hw := w.isLt
  rw [← BitVec.toNat_inj, Command.ofWord, BitVec.extractLsb'_toNat, Nat.shiftRight_eq_div_pow,
    Nat.mod_eq_of_lt (by omega)]
  rfl

/-- The register fields are the hexadecimal digits of the word's number (R70). -/
theorem regIndex_extractLsb' (k : Nat) : regIndex (w.extractLsb' k 4) = Fin.ofNat 16 (w.toNat / 2 ^ k) := by
  apply Fin.ext
  show (w.extractLsb' k 4).toNat = w.toNat / 2 ^ k % 16
  rw [BitVec.extractLsb'_toNat, Nat.shiftRight_eq_div_pow]

theorem regIndex_eq_zero_iff (f : BitVec 4) : regIndex f = 0 ↔ f = 0#4 := by
  rw [← BitVec.toNat_inj, Fin.ext_iff]
  rfl

end Fields

/-! ## The obligations -/

/-- Settles O1: the operation's fields come back from its word, and they are what the decoder looks at. -/
theorem decodeOfEncode : Obligations.DecodeOfEncode := by
  intro i
  rw [decode_eq_ok_iff, encode_eq_toWord_command, ofWord_toWord]

/-- Settles O2: the word's fields are the operation's, and the word is no more than its fields. -/
theorem encodeOfDecode : Obligations.EncodeOfDecode := by
  intro w i h
  rw [encode_eq_toWord_command, ← decode_eq_ok_iff.1 h, toWord_ofWord]

/-- Settles O3: the decoder's cases, with the fields read as numbers. -/
theorem decodeOutcomeOnEveryWord : Obligations.DecodeOutcomeOnEveryWord := by
  refine ⟨rfl, rfl, fun w => ?_⟩
  have h1 := ofWord_opc_eq_iff w 1#8
  have h2 := ofWord_opc_eq_iff w 2#8
  have h3 := ofWord_opc_eq_iff w 3#8
  have hrd : regIndex (Command.ofWord w).rd = _ := regIndex_extractLsb' w 8
  have hra : regIndex (Command.ofWord w).ra = _ := regIndex_extractLsb' w 12
  have hrb : regIndex (Command.ofWord w).rb = _ := regIndex_extractLsb' w 16
  have hrsv := ofWord_rsv_eq_zero_iff w
  dsimp only
  simp only [BitVec.toNat_ofNat, Nat.reducePow, Nat.reduceMod] at h1 h2 h3
  rw [← hrd, ← hra, ← hrb, ← h1, ← h2, ← h3, ne_eq, ← hrsv, ne_eq, regIndex_eq_zero_iff]
  exact ⟨decode_illegalOpcode, fun ⟨ho, hr⟩ => decode_rsv_ne_zero ho hr,
    fun ⟨ho, _, hb⟩ => decode_neg_rb_ne_zero ho hb, fun ⟨ho, hr⟩ => decode_add ho hr,
    fun ⟨ho, hr, hb⟩ => decode_neg ho hr hb, fun ⟨ho, hr⟩ => decode_sub ho hr⟩

/-- Settles O4: each word is its operation's encoding. -/
theorem workedEncodingsDecode : Obligations.WorkedEncodingsDecode :=
  ⟨decodeOfEncode (.add 2 0 1), decodeOfEncode (.neg 3 2), decodeOfEncode (.sub 4 0 1), decodeOfEncode (.add 0 0 0)⟩

end Sys2Proof
end

section
/-! SUPPORT. Well-formed lists of one length are their values (R12): range, sign, zero, and equality of lists read off
the value. -/

namespace Sys2Proof.Machine

theorem isNegative_iff {v : List Limb} : isNegative v = true ↔ signLimb v = maxLimb := by simp [isNegative]

theorem unsignedValue_eq_zero_iff {v : List Limb} : unsignedValue v = 0 ↔ ∀ x ∈ v, x = 0#64 := by
  induction v with
  | nil => simp [unsignedValue]
  | cons x v ih =>
    have hx : x.toNat = 0 ↔ x = 0#64 := by rw [← BitVec.toNat_inj]; rfl
    simp [unsignedValue, ih, radix, hx]

theorem radix_pow_pos (k : Nat) : (0 : Int) < (radix : Int) ^ k := pow_pos (by exact_mod_cast radix_pos) k

/-- A list whose sign limb is not B-1 reads as unsigned (R12). -/
theorem signedValue_of_signLimb_ne {v : List Limb} (h : signLimb v ≠ maxLimb) : signedValue v = unsignedValue v := by
  rw [signedValue, if_neg h, sub_zero]

theorem WF_two_le_length {m : Nat} {v : List Limb} (h : WF m v = true) : 2 ≤ v.length := (WF_iff.1 h).1.1

theorem WF_length_le {m : Nat} {v : List Limb} (h : WF m v = true) : v.length ≤ m := (WF_iff.1 h).1.2

theorem WF_signLimb {m : Nat} {v : List Limb} (h : WF m v = true) : signLimb v = 0#64 ∨ signLimb v = maxLimb :=
  (WF_iff.1 h).2.2

theorem WF_exists_length_eq {m : Nat} {v : List Limb} (h : WF m v = true) : ∃ k, v.length = k + 1 :=
  Nat.exists_eq_succ_of_ne_zero (by have := WF_two_le_length h; omega)

/-- The capacity bounds a list's length and nothing else (R13). -/
theorem WF_mono {m m' : Nat} {v : List Limb} (h : WF m v = true) (hm : v.length ≤ m') : WF m' v = true := by
  obtain ⟨⟨h2, -⟩, hv⟩ := WF_iff.1 h
  exact WF_iff.2 ⟨⟨h2, hm⟩, hv⟩

/-- R12: lists of one length with one value are equal. -/
theorem WF_eq_of_signedValue_eq {m m' : Nat} {u v : List Limb} (hu : WF m u = true) (hv : WF m' v = true)
    (hlen : u.length = v.length) (h : signedValue u = signedValue v) : u = v :=
  signedValueLaw.2.1 _ u v (WF_mono hu le_rfl) (WF_mono hv hlen.ge) hlen h

section Values
variable {m : Nat} {v : List Limb} (h : WF m v = true)
include h

theorem WF_signedValue_range :
    -((radix : Int) ^ (v.length - 1)) ≤ signedValue v ∧ signedValue v < (radix : Int) ^ (v.length - 1) := by
  obtain ⟨hlo, hhi, -⟩ := signedValueLaw.1 m v h
  omega

/-- R14: the negative lists are those of negative value. -/
theorem isNegative_iff_signedValue_neg : isNegative v = true ↔ signedValue v < 0 := by
  obtain ⟨d, x, rfl, -, hd, rfl | rfl⟩ := WF_split h
  · simp
  · simpa using (unsignedValue_range hd).2

/-- A list is all zeros exactly when its value is 0. -/
theorem WF_forall_eq_zero_iff : (∀ x ∈ v, x = 0#64) ↔ signedValue v = 0 := by
  obtain ⟨d, x, rfl, -, hd, rfl | rfl⟩ := WF_split h
  · simp [unsignedValue_eq_zero_iff, or_imp]
  · have h1 := (unsignedValue_range hd).2
    have : ¬ maxLimb = 0#64 := by decide
    rw [signedValue_append_maxLimb]
    exact ⟨fun hz => absurd (hz maxLimb (by simp)) this, fun hz => by omega⟩

end Values

/-! ## The most negative value -/

theorem mostNegative_length {n : Nat} (h : 1 ≤ n) : (mostNegative n).length = n := by
  simp [mostNegative]; omega

theorem unsignedValue_zeros (k : Nat) : unsignedValue (List.replicate k 0#64) = 0 :=
  unsignedValue_eq_zero_iff.2 fun _ => List.eq_of_mem_replicate

theorem zeros_lt (k : Nat) : ∀ x ∈ List.replicate k (0#64 : Limb), x.toNat < radix := fun _ hx =>
  List.eq_of_mem_replicate hx ▸ radix_pos

theorem signedValue_mostNegative (n : Nat) : signedValue (mostNegative n) = -((radix : Int) ^ (n - 1)) := by
  simp [mostNegative, unsignedValue_zeros]

theorem WF_mostNegative {n : Nat} (h : 2 ≤ n) : WF n (mostNegative n) = true :=
  WF_append_iff.2 ⟨by simp; omega, zeros_lt _, .inr rfl⟩

/-- R108: [0, ..., 0, B-1] is the one list of its length and value. -/
theorem eq_mostNegative_iff {m : Nat} {v : List Limb} (h : WF m v = true) :
    v = mostNegative v.length ↔ signedValue v = -((radix : Int) ^ (v.length - 1)) := by
  have h2 := WF_two_le_length h
  refine ⟨fun hv => by rw [hv, signedValue_mostNegative, mostNegative_length (by omega)], fun hv => ?_⟩
  exact WF_eq_of_signedValue_eq h (WF_mostNegative h2) (mostNegative_length (by omega)).symm
    (hv.trans (signedValue_mostNegative _).symm)

end Sys2Proof.Machine
end

section
/-! SUPPORT. Add (R100 to R107): what an operand contributes, the four things a sum's sign position can hold, and what
follows from which of them it is. -/

namespace Sys2Proof.Machine

/-! ## What an operand contributes (R102) -/

/-- eff is U, less B^N for a negative operand of full length. -/
theorem effectiveValue_eq {v : List Limb} {n : Nat} (h : v.length ≤ n) : effectiveValue v n =
    (unsignedValue v : Int) - if isNegative v = true ∧ v.length = n then (radix : Int) ^ n else 0 := by
  simp only [effectiveValue, signedValue, isNegative_iff]
  rcases h.eq_or_lt with rfl | h
  · simp
  · simp [h, h.ne]

/-- R102: eff is U modulo B^N. -/
theorem exists_effectiveValue_eq {v : List Limb} {n : Nat} (h : v.length ≤ n) :
    ∃ j : Int, effectiveValue v n = unsignedValue v - j * (radix : Int) ^ n := by
  rw [effectiveValue_eq h]
  split
  · exact ⟨1, by ring⟩
  · exact ⟨0, by ring⟩

theorem effectiveValue_eq_signedValue {v : List Limb} {n : Nat} (h : isNegative v = false ∨ n ≤ v.length) :
    effectiveValue v n = signedValue v := by
  have hn : ¬ (signLimb v = maxLimb ∧ v.length < n) := by
    rw [← isNegative_iff]
    rintro ⟨hs, hl⟩
    rcases h with h | h
    · rw [h] at hs; cases hs
    · omega
  rw [effectiveValue, if_neg hn, add_zero]

/-- A negative operand that is zero-filled counts for B^len more than its value (R96). -/
theorem effectiveValue_of_short {v : List Limb} {n : Nat} (hs : isNegative v = true) (hl : v.length < n) :
    effectiveValue v n = signedValue v + (radix : Int) ^ v.length := by
  rw [effectiveValue, if_pos ⟨isNegative_iff.1 hs, hl⟩]

theorem effectiveValue_range {m k : Nat} {v : List Limb} (h : WF m v = true) (hl : v.length ≤ k + 1) :
    -((radix : Int) ^ k) ≤ effectiveValue v (k + 1) ∧ effectiveValue v (k + 1) < (radix : Int) ^ k := by
  rcases hl.eq_or_lt with hk | hk
  · rw [effectiveValue_eq_signedValue (.inr hk.ge)]
    simpa [hk] using WF_signedValue_range h
  · have hlt := unsignedValue_lt (WF_limb_lt h)
    have hle : radix ^ v.length ≤ radix ^ k := Nat.pow_le_pow_right radix_pos (by omega)
    rw [effectiveValue_eq hl, if_neg (by omega)]
    zify at hlt hle
    omega

/-- Only a negative operand of full length counts as negative. -/
theorem effectiveValue_neg_iff {m k : Nat} {v : List Limb} (h : WF m v = true) (hl : v.length ≤ k + 1) :
    effectiveValue v (k + 1) < 0 ↔ isNegative v = true ∧ v.length = k + 1 := by
  by_cases hk : v.length = k + 1
  · rw [effectiveValue_eq_signedValue (.inr hk.ge), isNegative_iff_signedValue_neg h]
    simp [hk]
  · rw [effectiveValue_eq hl]
    simp [hk]

/-! ## The loop's outputs (R100, R101) -/

theorem addCore_length (a b : List Limb) :
    (addCore a b).r.length = max a.length b.length + (addCore a b).grow.toNat := by
  simp only [addCore]
  split <;> simp_all [addLoop_length]

theorem addCore_r_take (a b : List Limb) :
    (addCore a b).r.take (max a.length b.length) = (addLoop a b (max a.length b.length) 0 false).1 := by
  simp only [addCore]
  split <;> simp [addLoop_length]

/-- R101 on limbs below B. -/
theorem unsignedValue_addCore {a b : List Limb} (ha : ∀ x ∈ a, x.toNat < radix) (hb : ∀ x ∈ b, x.toNat < radix) :
    unsignedValue ((addCore a b).r.take (max a.length b.length)) +
      (addCore a b).cout.toNat * radix ^ max a.length b.length = unsignedValue a + unsignedValue b := by
  have h := (addLoop_spec ha hb (max a.length b.length) 0 false).2
  rw [unsignedValue_filled _ _ _ (by omega), unsignedValue_filled _ _ _ (by omega)] at h
  rw [addCore_r_take]
  simpa [addCore, mul_comm] using h

/-- R101: the sum carries out of position N exactly when it reaches B^N. -/
theorem addCore_cout_iff {a b : List Limb} (ha : ∀ x ∈ a, x.toNat < radix) (hb : ∀ x ∈ b, x.toNat < radix) :
    (addCore a b).cout = true ↔ radix ^ max a.length b.length ≤ unsignedValue a + unsignedValue b := by
  have hlt := unsignedValue_lt (addLoop_spec ha hb (max a.length b.length) 0 false).1
  rw [addLoop_length, ← addCore_r_take] at hlt
  rw [← unsignedValue_addCore ha hb]
  cases (addCore a b).cout with
  | false => simpa using hlt
  | true => simp

theorem addCore_comm (a b : List Limb) : addCore a b = addCore b a := by
  simp only [addCore, max_comm a.length, addLoop_comm a b, Bool.or_comm (shortNegative a _)]

/-! ## The sign position (R93, R94, R105) -/

/-- The limbs a sum ends in, by the quotient of the effective sum by B^(N-1): growth, a non-negative sum, a negative one,
and the sign limb B-2. -/
inductive SumTop : Int → List Limb → Prop
  | grown : SumTop 1 [1#64, 0#64]
  | nonneg : SumTop 0 [0#64]
  | negative : SumTop (-1) [maxLimb]
  | bad : SumTop (-2) [badSign]

/-- The sign position's limb is its quotient modulo B, and no limb but 1 grows. -/
theorem SumTop.of_limb {q : Int} {z : Limb} {j : Int} (hlo : -2 ≤ q) (hhi : q ≤ 1) (hz : z.toNat < radix)
    (hq : q = z.toNat + radix * j) : SumTop q (if z = 1#64 then [1#64, 0#64] else [z]) ∧ (z = 1#64 ↔ q = 1) := by
  simp only [radix] at hz hq
  have of_toNat {x : Limb} (h : z.toNat = x.toNat) : z = x := BitVec.eq_of_toNat_eq h
  obtain rfl | rfl | rfl | rfl : q = 1 ∨ q = 0 ∨ q = -1 ∨ q = -2 := by omega
  · obtain rfl : z = 1#64 := of_toNat (by simp; omega)
    exact ⟨.grown, by simp⟩
  · obtain rfl : z = 0#64 := of_toNat (by simp; omega)
    exact ⟨.nonneg, by decide⟩
  · obtain rfl : z = maxLimb := of_toNat (by simp [radix]; omega)
    exact ⟨.negative, by decide⟩
  · obtain rfl : z = badSign := of_toNat (by simp [radix]; omega)
    exact ⟨.bad, by decide⟩

/-- A sum of two effective operands has quotient -2 to 1 (R103). -/
theorem sumQuotient_range {P u e q : Int} (hu : 0 ≤ u ∧ u < P) (he : -(2 * P) ≤ e ∧ e < 2 * P) (h : e = u + q * P) :
    -2 ≤ q ∧ q ≤ 1 := by
  have hP : 0 ≤ P := by omega
  have hlo : -3 < q := lt_of_mul_lt_mul_right (by omega) hP
  have hhi : q < 2 := lt_of_mul_lt_mul_right (by omega) hP
  omega

@[simp] theorem signLimb_append_pair (s : List Limb) (x y : Limb) : signLimb (s ++ [x, y]) = y := by
  simpa using signLimb_append (s ++ [x]) y

section Top
variable {q : Int} {top : List Limb} (h : SumTop q top) (s : List Limb)
include h

theorem SumTop.signLimb_eq_badSign_iff : signLimb (s ++ top) = badSign ↔ q = -2 := by
  cases h <;> simp <;> decide

theorem SumTop.signLimb_cases :
    signLimb (s ++ top) = 0#64 ∨ signLimb (s ++ top) = maxLimb ∨ signLimb (s ++ top) = badSign := by
  cases h <;> simp

/-- With a valid sign limb the value is the quotient's; under B-2 the list reads as unsigned, B^N more (R12, R105). -/
theorem SumTop.signedValue_append : signedValue (s ++ top) =
    unsignedValue s + q * (radix : Int) ^ s.length + if q = -2 then (radix : Int) ^ (s.length + 1) else 0 := by
  cases h with
  | grown =>
    rw [List.append_cons, signedValue_append_zero]
    simp [unsignedValue_append, unsignedValue]
  | nonneg => simp
  | negative => simp; ring
  | bad =>
    have hb : ¬ badSign = maxLimb := by decide
    simp [signedValue, unsignedValue_append, unsignedValue, hb, radix, pow_succ]
    ring

theorem SumTop.WF_append (hs : ∀ x ∈ s, x.toNat < radix) (h1 : 1 ≤ s.length) (hq : q ≠ -2) :
    WF (s ++ top).length (s ++ top) = true := by
  cases h with
  | grown =>
    rw [List.append_cons, WF_append_iff]
    exact ⟨by simp, List.forall_mem_append.2 ⟨hs, by simp [radix]⟩, .inl rfl⟩
  | nonneg => exact WF_append_iff.2 ⟨by simpa, hs, .inl rfl⟩
  | negative => exact WF_append_iff.2 ⟨by simpa, hs, .inr rfl⟩
  | bad => exact absurd rfl hq

end Top

theorem exists_max_length_eq {m : Nat} {a : List Limb} (ha : WF m a = true) (b : List Limb) :
    ∃ k, max a.length b.length = k + 1 :=
  Nat.exists_eq_succ_of_ne_zero (by have := WF_two_le_length ha; omega)

section Sum
variable {m k : Nat} {a b : List Limb} (ha : WF m a = true) (hb : WF m b = true) (hk : max a.length b.length = k + 1)
include ha hb hk

/-- The result as the loop's limbs, the one at the sign position apart, and R101 on them. -/
theorem addCore_digits : ∃ s z, s.length = k ∧ (∀ x ∈ s, x.toNat < radix) ∧ z.toNat < radix ∧
    (addCore a b).r = s ++ (if z = 1#64 then [1#64, 0#64] else [z]) ∧ ((addCore a b).grow = true ↔ z = 1#64) ∧
    unsignedValue s + z.toNat * radix ^ k + (addCore a b).cout.toNat * radix ^ (k + 1) =
      unsignedValue a + unsignedValue b := by
  have hlt := (addLoop_spec (WF_limb_lt ha) (WF_limb_lt hb) (k + 1) 0 false).1
  have hsum := unsignedValue_addCore (WF_limb_lt ha) (WF_limb_lt hb)
  have hlen := addLoop_length a b (k + 1) 0 false
  rw [addCore_r_take, hk] at hsum
  obtain hnil | ⟨s, z, hsz⟩ := List.eq_nil_or_concat' (addLoop a b (k + 1) 0 false).1
  · simp [hnil] at hlen
  rw [hsz] at hlt hlen hsum
  obtain ⟨hs, hz⟩ := List.forall_mem_append.1 hlt
  obtain rfl : s.length = k := by simpa using hlen
  refine ⟨s, z, rfl, hs, hz z (by simp), ?_, by simp [addCore, hk, hsz], ?_⟩
  · by_cases h1 : z = 1#64 <;> simp [addCore, hk, hsz, h1]
  · rw [← hsum, unsignedValue_append]; simp [unsignedValue, mul_comm]

/-- The limbs of a sum: those below the sign position are the effective sum modulo B^(N-1), and the quotient, one of 1, 0,
-1 and -2, decides the limbs from there on. -/
theorem addCore_cases : ∃ s q top, s.length = k ∧ (∀ x ∈ s, x.toNat < radix) ∧ SumTop q top ∧
    (addCore a b).r = s ++ top ∧ ((addCore a b).grow = true ↔ q = 1) ∧
    effectiveValue a (k + 1) + effectiveValue b (k + 1) = unsignedValue s + q * (radix : Int) ^ k := by
  obtain ⟨s, z, rfl, hs, hz, hr, hg, hsum⟩ := addCore_digits ha hb hk
  have hla : a.length ≤ s.length + 1 := by omega
  have hlb : b.length ≤ s.length + 1 := by omega
  obtain ⟨ja, hja⟩ := exists_effectiveValue_eq hla
  obtain ⟨jb, hjb⟩ := exists_effectiveValue_eq hlb
  have he : effectiveValue a (s.length + 1) + effectiveValue b (s.length + 1) = unsignedValue s +
      (z.toNat + radix * ((addCore a b).cout.toNat - ja - jb)) * (radix : Int) ^ s.length := by
    zify at hsum
    rw [hja, hjb]
    linear_combination -hsum
  have hra := effectiveValue_range ha hla
  have hrb := effectiveValue_range hb hlb
  obtain ⟨hlo, hhi⟩ := sumQuotient_range (unsignedValue_range hs) (by omega) he
  obtain ⟨htop, hone⟩ := SumTop.of_limb hlo hhi hz rfl
  exact ⟨s, _, _, rfl, hs, htop, hr, hg.trans hone, he⟩

/-- R106: growth happens exactly on a sum of at least B^(N-1). -/
theorem addCore_grow_iff : (addCore a b).grow = true ↔
    (radix : Int) ^ k ≤ effectiveValue a (k + 1) + effectiveValue b (k + 1) := by
  obtain ⟨s, q, top, rfl, hs, htop, -, hg, he⟩ := addCore_cases ha hb hk
  have hu := unsignedValue_range hs
  rw [hg, he]
  cases htop <;> omega

/-- R105: the sign limb is B-2 exactly on a sum below -B^(N-1). -/
theorem signLimb_addCore_eq_badSign_iff : signLimb (addCore a b).r = badSign ↔
    effectiveValue a (k + 1) + effectiveValue b (k + 1) < -((radix : Int) ^ k) := by
  obtain ⟨s, q, top, rfl, hs, htop, hr, -, he⟩ := addCore_cases ha hb hk
  have hu := unsignedValue_range hs
  rw [hr, he, htop.signLimb_eq_badSign_iff]
  cases htop <;> omega

/-- R103, R105: a sum's value, the one under sign limb B-2 included. -/
theorem signedValue_addCore : signedValue (addCore a b).r = effectiveValue a (k + 1) + effectiveValue b (k + 1) +
    if signLimb (addCore a b).r = badSign then (radix : Int) ^ (k + 1) else 0 := by
  obtain ⟨s, q, top, rfl, -, htop, hr, -, he⟩ := addCore_cases ha hb hk
  simp only [hr, he, htop.signedValue_append, htop.signLimb_eq_badSign_iff]

omit hk in
/-- R103: a sum is well-formed but for its length, unless its sign limb is B-2. -/
theorem WF_addCore (hbad : signLimb (addCore a b).r ≠ badSign) : WF (addCore a b).r.length (addCore a b).r = true := by
  obtain ⟨k, hk⟩ := exists_max_length_eq ha b
  obtain ⟨s, q, top, rfl, hs, htop, hr, -, -⟩ := addCore_cases ha hb hk
  have := WF_two_le_length ha
  have := WF_two_le_length hb
  rw [hr, ne_eq, htop.signLimb_eq_badSign_iff] at hbad
  rw [hr]
  exact htop.WF_append s hs (by omega) hbad

theorem addCore_of_grow (hg : (addCore a b).grow = true) : ∃ s, s.length = k ∧ (∀ x ∈ s, x.toNat < radix) ∧
    (addCore a b).r = s ++ [1#64, 0#64] ∧
    effectiveValue a (k + 1) + effectiveValue b (k + 1) = unsignedValue s + (radix : Int) ^ k := by
  obtain ⟨s, q, top, hlen, hs, htop, hr, hq, he⟩ := addCore_cases ha hb hk
  obtain rfl := hq.1 hg
  cases htop
  exact ⟨s, hlen, hs, hr, by rw [he, one_mul]⟩

end Sum

end Sys2Proof.Machine
end

section
/-! SUPPORT. The laws of Add (R100 to R107), each read off the digits of a sum. -/

namespace Sys2Proof.Machine

/-- Settles O45: the loop's length and the loop's sum. -/
theorem sumLengthAndUnsignedIdentity : Obligations.SumLengthAndUnsignedIdentity := fun _ a b ha hb =>
  ⟨addCore_length a b, unsignedValue_addCore (WF_limb_lt ha) (WF_limb_lt hb),
    addCore_cout_iff (WF_limb_lt ha) (WF_limb_lt hb)⟩

/-- A negative list's U lies at the top of its range: the sign limb is B-1 (R102). -/
theorem le_unsignedValue_of_negative {m : Nat} {v : List Limb} (h : WF m v = true) (hs : isNegative v = true) :
    (radix - 1) * radix ^ (v.length - 1) ≤ unsignedValue v := by
  obtain ⟨d, x, rfl, -, -, rfl | rfl⟩ := WF_split h
  · simp at hs
  · simp [unsignedValue_append, unsignedValue, mul_comm]

/-- Settles O46: the loop's sum modulo B^N, and what eff is in each case. -/
theorem effectiveOperandValue : Obligations.EffectiveOperandValue := by
  intro m a b ha hb n
  obtain ⟨ja, hja⟩ := exists_effectiveValue_eq (v := a) (n := n) (le_max_left _ _)
  obtain ⟨jb, hjb⟩ := exists_effectiveValue_eq (v := b) (n := n) (le_max_right _ _)
  refine ⟨?_, fun h => effectiveValue_eq_signedValue (h.imp_right Eq.ge), fun hs hl => ⟨?_, ?_, ?_⟩⟩
  · have hsum : (unsignedValue ((addCore a b).r.take n) : Int) + (addCore a b).cout.toNat * (radix : Int) ^ n =
        unsignedValue a + unsignedValue b := by
      exact_mod_cast unsignedValue_addCore (WF_limb_lt ha) (WF_limb_lt hb)
    refine Int.modEq_iff_dvd.2 ⟨(addCore a b).cout.toNat - ja - jb, ?_⟩
    rw [hja, hjb]
    linear_combination -hsum
  · rw [effectiveValue_eq (le_max_left _ _), if_neg (by omega), sub_zero]
  · exact le_unsignedValue_of_negative ha hs
  · exact Nat.le_sub_one_of_lt (unsignedValue_lt (WF_limb_lt ha))

/-- Settles O47: without growth the list is well-formed of length N, and with it ends in 1, 0. -/
theorem sumValueLaw : Obligations.SumValueLaw := by
  intro m a b ha hb
  obtain ⟨k, hk⟩ := exists_max_length_eq ha b
  simp only [hk, Nat.add_sub_cancel]
  intro hbad
  have hwf := WF_addCore ha hb hbad
  have hra := effectiveValue_range ha (k := k) (by omega)
  have hrb := effectiveValue_range hb (k := k) (by omega)
  refine ⟨WF_limb_lt hwf, WF_signLimb hwf, ?_, ?_, by omega, fun hg => ?_⟩
  · rw [signedValue_addCore ha hb hk, if_neg hbad, add_zero]
  · exact not_lt.1 fun h => hbad ((signLimb_addCore_eq_badSign_iff ha hb hk).2 h)
  · obtain ⟨s, rfl, -, hr, -⟩ := addCore_of_grow ha hb hk ((addCore_grow_iff ha hb hk).2 hg)
    simp [hr]

/-! ## Flagged and unflagged sums (R104, R105) -/

theorem shortNegative_iff {v : List Limb} {n : Nat} :
    shortNegative v n = true ↔ isNegative v = true ∧ v.length < n := by
  simp [shortNegative, isNegative, and_comm]

theorem addCore_zfill_iff {a b : List Limb} : (addCore a b).zfill = true ↔
    (isNegative a = true ∧ a.length < max a.length b.length) ∨
      (isNegative b = true ∧ b.length < max a.length b.length) := by
  rw [← shortNegative_iff, ← shortNegative_iff, ← Bool.or_eq_true]; rfl

theorem addCore_zfill_of_length_eq {a b : List Limb} (h : a.length = b.length) : (addCore a b).zfill = false := by
  rw [← Bool.not_eq_true, addCore_zfill_iff]; omega

/-- Without a zero-fill the operands contribute their values (R102). -/
theorem effectiveValue_add_of_zfill {a b : List Limb} {n : Nat} (hn : max a.length b.length = n)
    (hz : (addCore a b).zfill = false) : effectiveValue a n + effectiveValue b n = signedValue a + signedValue b := by
  subst hn
  rw [← Bool.not_eq_true, addCore_zfill_iff, not_or, not_and, not_and, not_lt, not_lt] at hz
  have exact_of {v : List Limb} (hv : isNegative v = true → max a.length b.length ≤ v.length) :
      effectiveValue v (max a.length b.length) = signedValue v :=
    effectiveValue_eq_signedValue ((Bool.eq_false_or_eq_true _).symm.imp_right hv)
  rw [exact_of hz.1, exact_of hz.2]

section Flags
variable {m : Nat} {a b : List Limb} (ha : WF m a = true) (hb : WF m b = true)
include ha hb

/-- Only two negative operands of full length give the sign limb B-2 (R105). -/
theorem negative_of_badSign (hbad : signLimb (addCore a b).r = badSign) : isNegative a = true ∧ isNegative b = true ∧
    a.length = max a.length b.length ∧ b.length = max a.length b.length := by
  obtain ⟨k, hk⟩ := exists_max_length_eq ha b
  have hra := effectiveValue_range ha (k := k) (by omega)
  have hrb := effectiveValue_range hb (k := k) (by omega)
  have he := (signLimb_addCore_eq_badSign_iff ha hb hk).1 hbad
  obtain ⟨hna, hla⟩ := (effectiveValue_neg_iff ha (k := k) (by omega)).1 (by omega)
  obtain ⟨hnb, hlb⟩ := (effectiveValue_neg_iff hb (k := k) (by omega)).1 (by omega)
  exact ⟨hna, hnb, hla.trans hk.symm, hlb.trans hk.symm⟩

theorem zfill_of_badSign (hbad : signLimb (addCore a b).r = badSign) : (addCore a b).zfill = false := by
  obtain ⟨-, -, hla, hlb⟩ := negative_of_badSign ha hb hbad
  exact addCore_zfill_of_length_eq (hla.trans hlb.symm)

/-- R105: two operands that high as unsigned numbers carry. -/
theorem cout_of_badSign (hbad : signLimb (addCore a b).r = badSign) : (addCore a b).cout = true := by
  obtain ⟨k, hk⟩ := exists_max_length_eq ha b
  obtain ⟨hna, hnb, hla, hlb⟩ := negative_of_badSign ha hb hbad
  have hua := le_unsignedValue_of_negative ha hna
  have hub := le_unsignedValue_of_negative hb hnb
  rw [hla, hk, Nat.add_sub_cancel] at hua
  rw [hlb, hk, Nat.add_sub_cancel] at hub
  have hpow : radix ^ (k + 1) ≤ 2 * ((radix - 1) * radix ^ k) := by
    rw [pow_succ', ← mul_assoc]
    exact Nat.mul_le_mul_right _ (by decide)
  rw [addCore_cout_iff (WF_limb_lt ha) (WF_limb_lt hb), hk]
  omega

theorem grow_of_badSign (hbad : signLimb (addCore a b).r = badSign) : (addCore a b).grow = false := by
  obtain ⟨k, hk⟩ := exists_max_length_eq ha b
  have := (signLimb_addCore_eq_badSign_iff ha hb hk).1 hbad
  have := radix_pow_pos k
  rw [← Bool.not_eq_true, addCore_grow_iff ha hb hk]
  omega

/-- R104, R105: without a zero-fill a sum is off only under the sign limb B-2, and then by B^N. -/
theorem signedValue_addCore_of_zfill (hz : (addCore a b).zfill = false) :
    signedValue (addCore a b).r = signedValue a + signedValue b +
      if signLimb (addCore a b).r = badSign then (radix : Int) ^ max a.length b.length else 0 := by
  obtain ⟨k, hk⟩ := exists_max_length_eq ha b
  rw [signedValue_addCore ha hb hk, hk, effectiveValue_add_of_zfill hk hz]

/-- R104: a sum without a zero-fill and without the sign limb B-2 is exact. -/
theorem signedValue_addCore_of_unflagged (hz : (addCore a b).zfill = false)
    (hbad : signLimb (addCore a b).r ≠ badSign) :
    signedValue (addCore a b).r = signedValue a + signedValue b := by
  rw [signedValue_addCore_of_zfill ha hb hz, if_neg hbad, add_zero]

/-- A sum in the range of the longer operand is exact and keeps that operand's length (R104, R106). -/
theorem addCore_of_in_range {k : Nat} (hk : max a.length b.length = k + 1) (hz : (addCore a b).zfill = false)
    (hlo : -((radix : Int) ^ k) ≤ signedValue a + signedValue b)
    (hhi : signedValue a + signedValue b < (radix : Int) ^ k) :
    (addCore a b).grow = false ∧ WF (k + 1) (addCore a b).r = true ∧ (addCore a b).r.length = k + 1 ∧
      signedValue (addCore a b).r = signedValue a + signedValue b := by
  have hsum := effectiveValue_add_of_zfill hk hz
  have hbad : signLimb (addCore a b).r ≠ badSign := by
    rw [ne_eq, signLimb_addCore_eq_badSign_iff ha hb hk]; omega
  have hg : (addCore a b).grow = false := by
    rw [← Bool.not_eq_true, addCore_grow_iff ha hb hk]; omega
  have hlen : (addCore a b).r.length = k + 1 := by rw [addCore_length, hk, hg]; rfl
  exact ⟨hg, hlen ▸ WF_addCore ha hb hbad, hlen, signedValue_addCore_of_unflagged ha hb hz hbad⟩

/-- R104: a zero-filled negative operand puts the sum B^len too high. -/
theorem addCore_of_short (hs : isNegative a = true) (hl : a.length < b.length) : (addCore a b).zfill = true ∧
    signedValue (addCore a b).r = signedValue a + signedValue b + (radix : Int) ^ a.length := by
  obtain ⟨k, hk⟩ := exists_max_length_eq ha b
  have hz : (addCore a b).zfill = true := addCore_zfill_iff.2 (.inl ⟨hs, by omega⟩)
  have hbad : signLimb (addCore a b).r ≠ badSign := fun h => by simp [zfill_of_badSign ha hb h] at hz
  refine ⟨hz, ?_⟩
  rw [signedValue_addCore ha hb hk, if_neg hbad, effectiveValue_of_short hs (by omega),
    effectiveValue_eq_signedValue (.inr (by omega))]
  ring

end Flags

/-- Settles O48: the error term is 0 exactly where neither flag is set. -/
theorem sumIsExactUnlessFlagged : Obligations.SumIsExactUnlessFlagged := by
  intro m a b ha hb
  dsimp only
  have hleft (hs : isNegative a = true) (hl : a.length < max a.length b.length) :=
    addCore_of_short ha hb hs (by omega)
  have hright (hs : isNegative b = true) (hl : b.length < max a.length b.length) :=
    addCore_of_short hb ha hs (by omega)
  rw [addCore_comm b, add_comm (signedValue b)] at hright
  refine ⟨⟨fun h => ?_, fun ⟨hz, hbad⟩ => ?_⟩, hleft, hright, addCore_zfill_iff.1⟩
  · have hz : (addCore a b).zfill = false := by
      rw [← Bool.not_eq_true]
      intro hz
      rcases addCore_zfill_iff.1 hz with ⟨hs, hl⟩ | ⟨hs, hl⟩
      · have hv := (hleft hs hl).2
        have := radix_pow_pos a.length
        omega
      · have hv := (hright hs hl).2
        have := radix_pow_pos b.length
        omega
    refine ⟨hz, fun hbad => ?_⟩
    have hv := signedValue_addCore_of_zfill ha hb hz
    have := radix_pow_pos (max a.length b.length)
    rw [if_pos hbad] at hv
    omega
  · exact signedValue_addCore_of_unflagged ha hb hz hbad

/-- Settles O49: both operands are negative of full length, so neither is zero-filled and both have carried. -/
theorem signLimbOverflowLaw : Obligations.SignLimbOverflowLaw := by
  intro m a b ha hb
  obtain ⟨k, hk⟩ := exists_max_length_eq ha b
  have hlow := signLimb_addCore_eq_badSign_iff ha hb hk
  dsimp only
  refine ⟨⟨fun hbad => ?_, fun ⟨_, _, hla, hlb, hlt⟩ => ?_⟩, fun hbad => ?_, ?_⟩
  · obtain ⟨hna, hnb, hla, hlb⟩ := negative_of_badSign ha hb hbad
    rw [effectiveValue_add_of_zfill hk (zfill_of_badSign ha hb hbad)] at hlow
    exact ⟨hna, hnb, hla, hlb, by simpa [hk] using hlow.1 hbad⟩
  · rw [hlow, effectiveValue_eq_signedValue (.inr (by omega)), effectiveValue_eq_signedValue (.inr (by omega))]
    simpa [hk] using hlt
  · refine ⟨grow_of_badSign ha hb hbad, ?_, cout_of_badSign ha hb hbad, ?_⟩
    · rw [addCore_length, grow_of_badSign ha hb hbad]; rfl
    · rw [← signedValue_of_signLimb_ne (hbad ▸ by decide),
        signedValue_addCore_of_zfill ha hb (zfill_of_badSign ha hb hbad), if_pos hbad]
  · obtain ⟨s, q, top, -, -, htop, hr, -, -⟩ := addCore_cases ha hb hk
    exact hr ▸ htop.signLimb_cases s

/-- Settles O50: a sum that large leaves no operand room to be negative. -/
theorem growthLaw : Obligations.GrowthLaw := by
  intro m a b ha hb
  obtain ⟨k, hk⟩ := exists_max_length_eq ha b
  have hP := radix_pow_pos k
  have hra := effectiveValue_range ha (k := k) (by omega)
  have hrb := effectiveValue_range hb (k := k) (by omega)
  simp only [hk, Nat.add_sub_cancel, addCore_grow_iff ha hb hk, ne_eq, signLimb_addCore_eq_badSign_iff ha hb hk,
    ← effectiveValue_neg_iff ha (k := k) (by omega), ← effectiveValue_neg_iff hb (k := k) (by omega)]
  omega

theorem CoreOut.eq_mk {out : CoreOut} {r : List Limb} {cout grow zfill : Bool} (hr : out.r = r)
    (hc : out.cout = cout) (hg : out.grow = grow) (hz : out.zfill = zfill) : out = ⟨r, cout, grow, zfill⟩ := by
  subst hr hc hg hz; rfl

/-- Settles O51: the identity keeps length and value, hence the list. -/
theorem addIsCommutativeWithIdentity : Obligations.AddIsCommutativeWithIdentity := by
  refine ⟨addCore_comm, fun m a ha => ?_⟩
  have h0 : WF m [0#64, 0#64] = true :=
    WF_mono (show WF 2 _ = true by decide) ((WF_two_le_length ha).trans (WF_length_le ha))
  have hn0 : isNegative [0#64, 0#64] = false := by decide
  have hv0 : signedValue [0#64, 0#64] = 0 := by decide
  obtain ⟨k, hlen⟩ := WF_exists_length_eq ha
  have hk : max a.length [0#64, 0#64].length = k + 1 := by
    have := WF_two_le_length ha
    simp; omega
  have hz : (addCore a [0#64, 0#64]).zfill = false := by
    rw [← Bool.not_eq_true, addCore_zfill_iff, hk, hn0]; simp [hlen]
  have hrange := WF_signedValue_range ha
  simp only [hlen, Nat.add_sub_cancel] at hrange
  obtain ⟨hg, hwf, hrlen, hv⟩ := addCore_of_in_range ha h0 hk hz (by omega) (by omega)
  have hr : (addCore a [0#64, 0#64]).r = a :=
    WF_eq_of_signedValue_eq hwf ha (hrlen.trans hlen.symm) (by rw [hv, hv0, add_zero])
  have hc : (addCore a [0#64, 0#64]).cout = false := by
    have := unsignedValue_lt (WF_limb_lt ha)
    rw [← Bool.not_eq_true, addCore_cout_iff (WF_limb_lt ha) (WF_limb_lt h0), hk, ← hlen]
    simpa [unsignedValue] using this
  exact CoreOut.eq_mk hr hc hg hz

end Sys2Proof.Machine
end

section
/-! SUPPORT. Negate (R108, R109): the complement's value, and Add of ONE to it, which is never flagged. -/

namespace Sys2Proof.Machine

/-! ## The complement (R97) -/

@[simp] theorem comp_length (v : List Limb) : (comp v).length = v.length := List.length_map _

theorem comp_append (d : List Limb) (x : Limb) : comp (d ++ [x]) = comp d ++ [maxLimb - x] := List.map_append

theorem toNat_maxLimb_sub {x : Limb} (h : x.toNat < radix) : (maxLimb - x).toNat = radix - 1 - x.toNat := by
  simp only [radix] at *
  rw [BitVec.toNat_sub, maxLimb_toNat]
  simp only [radix]; omega

theorem comp_lt {v : List Limb} (h : ∀ x ∈ v, x.toNat < radix) : ∀ x ∈ comp v, x.toNat < radix := by
  simp only [comp, List.forall_mem_map]
  intro x hx
  have := radix_pos
  rw [toNat_maxLimb_sub (h x hx)]; omega

/-- The complement takes every digit of U from B-1. -/
theorem unsignedValue_comp {v : List Limb} (h : ∀ x ∈ v, x.toNat < radix) :
    unsignedValue (comp v) + unsignedValue v + 1 = radix ^ v.length := by
  induction v with
  | nil => rfl
  | cons x v ih =>
    obtain ⟨hx, hv⟩ := List.forall_mem_cons.1 h
    have hc : comp (x :: v) = (maxLimb - x) :: comp v := rfl
    rw [hc, List.length_cons, pow_succ, ← ih hv]
    simp only [unsignedValue, toNat_maxLimb_sub hx]
    simp only [radix] at *
    omega

/-- COMP exchanges the two sign limbs (R97). -/
theorem maxLimb_sub_sign {x : Limb} (h : x = 0#64 ∨ x = maxLimb) : maxLimb - x = 0#64 ∨ maxLimb - x = maxLimb := by
  rcases h with rfl | rfl <;> decide

theorem WF_comp {m : Nat} {v : List Limb} (h : WF m v = true) : WF m (comp v) = true := by
  obtain ⟨d, x, rfl, -, hd, hx⟩ := WF_split h
  rw [comp_append]
  exact WF_append_iff.2 ⟨by simpa using (WF_append_iff.1 h).1, comp_lt hd, maxLimb_sub_sign hx⟩

/-- The complement is one less than the negation (R108). -/
theorem signedValue_comp {m : Nat} {v : List Limb} (h : WF m v = true) : signedValue (comp v) = -1 - signedValue v := by
  obtain ⟨d, x, rfl, -, hd, hx⟩ := WF_split h
  have hU := unsignedValue_comp hd
  zify at hU
  rw [comp_append]
  rcases hx with rfl | rfl
  · rw [show maxLimb - 0#64 = maxLimb by decide, signedValue_append_maxLimb, signedValue_append_zero, comp_length]
    omega
  · rw [show maxLimb - maxLimb = 0#64 by decide, signedValue_append_maxLimb, signedValue_append_zero]
    omega

/-! ## Negation -/

theorem signedValue_one : signedValue one = 1 := by decide

section Negate
variable {m : Nat} {a : List Limb} (ha : WF m a = true)
include ha

theorem WF_one : WF m one = true :=
  WF_mono (show WF 2 one = true by decide) ((WF_two_le_length ha).trans (WF_length_le ha))

theorem max_comp_one_length : max (comp a).length one.length = a.length := by
  have := WF_two_le_length ha
  simpa [one] using this

theorem negCore_zfill : (negCore a).zfill = false := by
  have h1 : isNegative one = false := by decide
  rw [negCore, ← Bool.not_eq_true, addCore_zfill_iff, max_comp_one_length ha, h1]
  simp

theorem negCore_signLimb_ne_badSign : signLimb (negCore a).r ≠ badSign := fun h => by
  have := (negative_of_badSign (WF_comp ha) (WF_one ha) h).2.1
  exact absurd this (by decide)

theorem WF_negCore : WF (negCore a).r.length (negCore a).r = true :=
  WF_addCore (WF_comp ha) (WF_one ha) (negCore_signLimb_ne_badSign ha)

theorem signedValue_negCore : signedValue (negCore a).r = -signedValue a := by
  have h := signedValue_addCore_of_unflagged (WF_comp ha) (WF_one ha) (negCore_zfill ha)
    (negCore_signLimb_ne_badSign ha)
  rw [negCore, h, signedValue_comp ha, signedValue_one]; ring

theorem negCore_length : (negCore a).r.length = a.length + (negCore a).grow.toNat := by
  rw [negCore, addCore_length, max_comp_one_length ha]

/-- R108: negation grows only on the most negative value. -/
theorem negCore_grow_iff : (negCore a).grow = true ↔ a = mostNegative a.length := by
  obtain ⟨k, hk⟩ := WF_exists_length_eq ha
  have hmax := (max_comp_one_length ha).trans hk
  have hrange := WF_signedValue_range ha
  rw [negCore, addCore_grow_iff (WF_comp ha) (WF_one ha) hmax, effectiveValue_add_of_zfill hmax (negCore_zfill ha),
    signedValue_comp ha, signedValue_one, eq_mostNegative_iff ha]
  simp only [hk, Nat.add_sub_cancel] at *
  omega

theorem negCore_length_of_ne (h : a ≠ mostNegative a.length) : (negCore a).r.length = a.length := by
  rw [negCore_length ha, eq_false_of_ne_true (mt (negCore_grow_iff ha).1 h)]; rfl

/-- R108: the negation of the most negative value. -/
theorem negCore_mostNegative (h : a = mostNegative a.length) :
    (negCore a).r = List.replicate (a.length - 1) 0#64 ++ [1#64, 0#64] := by
  obtain ⟨k, hk⟩ := WF_exists_length_eq ha
  have hmax := (max_comp_one_length ha).trans hk
  obtain ⟨s, hs, -, hr, he⟩ := addCore_of_grow (WF_comp ha) (WF_one ha) hmax ((negCore_grow_iff ha).2 h)
  have hv := (eq_mostNegative_iff ha).1 h
  rw [effectiveValue_add_of_zfill hmax (negCore_zfill ha), signedValue_comp ha, signedValue_one] at he
  have hu : unsignedValue s = 0 := by
    simp only [hk, Nat.add_sub_cancel] at hv
    zify; omega
  rw [negCore, hr, hk, Nat.add_sub_cancel, List.eq_replicate_iff.2 ⟨hs, unsignedValue_eq_zero_iff.1 hu⟩]

/-- R108: COMP of zeros is all B-1, so adding ONE carries out; nothing else does. -/
theorem negCore_cout_iff : (negCore a).cout = true ↔ ∀ x ∈ a, x = 0#64 := by
  have hU := unsignedValue_comp (WF_limb_lt ha)
  rw [negCore, addCore_cout_iff (comp_lt (WF_limb_lt ha)) (WF_limb_lt (WF_one ha)), max_comp_one_length ha,
    show unsignedValue one = 1 by decide, ← unsignedValue_eq_zero_iff]
  omega

theorem negCore_eq_of_zeros (h : ∀ x ∈ a, x = 0#64) : (negCore a).r = a := by
  have hv := (WF_forall_eq_zero_iff ha).1 h
  have hne : a ≠ mostNegative a.length := fun hm => by
    have := (eq_mostNegative_iff ha).1 hm
    have := radix_pow_pos (a.length - 1)
    omega
  exact WF_eq_of_signedValue_eq (WF_negCore ha) ha (negCore_length_of_ne ha hne)
    (by rw [signedValue_negCore ha, hv]; rfl)

/-- R109: a value with its negation in range comes back by a second negation. -/
theorem negCore_negCore_of_ne (h : a ≠ mostNegative a.length) : (negCore (negCore a).r).r = a := by
  have hnb := WF_negCore ha
  have hlen := negCore_length_of_ne ha h
  have hne : (negCore a).r ≠ mostNegative (negCore a).r.length := fun hm => by
    have := (eq_mostNegative_iff hnb).1 hm
    have := (WF_signedValue_range ha).2
    rw [signedValue_negCore ha, hlen] at *
    omega
  exact WF_eq_of_signedValue_eq (WF_negCore hnb) ha ((negCore_length_of_ne hnb hne).trans hlen)
    (by rw [signedValue_negCore hnb, signedValue_negCore ha, neg_neg])

end Negate

/-- Settles O52: each output on its own. -/
theorem negateLaw : Obligations.NegateLaw := fun _ _ ha =>
  ⟨signedValue_negCore ha, WF_signLimb (WF_negCore ha), negCore_zfill ha, negCore_grow_iff ha,
    fun h => ⟨(eq_mostNegative_iff ha).1 h, negCore_mostNegative ha h⟩, negCore_length_of_ne ha, negCore_cout_iff ha,
    negCore_eq_of_zeros ha⟩

/-- Settles O53: the most negative value's negation grows, and negating that keeps the longer length. -/
theorem doubleNegationLaw : Obligations.DoubleNegationLaw := by
  intro m a ha
  refine ⟨negCore_negCore_of_ne ha, fun h => ?_⟩
  have hnb := WF_negCore ha
  have hv : signedValue (negCore (negCore a).r).r = signedValue a := by
    rw [signedValue_negCore hnb, signedValue_negCore ha, neg_neg]
  have hlen : (negCore a).r.length = a.length + 1 := by rw [negCore_length ha, (negCore_grow_iff ha).2 h]; rfl
  have hne : (negCore a).r ≠ mostNegative (negCore a).r.length := fun hm => by
    have h1 := (eq_mostNegative_iff hnb).1 hm
    have h2 := (eq_mostNegative_iff ha).1 h
    have := radix_pow_pos ((negCore a).r.length - 1)
    have := radix_pow_pos (a.length - 1)
    rw [signedValue_negCore ha] at h1
    omega
  have hmn := WF_mostNegative (WF_two_le_length ha)
  have hext : WF (a.length + 1) (mostNegative a.length ++ [maxLimb]) = true :=
    WF_append_iff.2 ⟨by rw [← h]; have := WF_two_le_length ha; omega, WF_limb_lt hmn, .inr rfl⟩
  have hvext : signedValue (mostNegative a.length ++ [maxLimb]) = signedValue a := by
    conv_rhs => rw [h]
    exact signedValue_append_signLimb (.inr rfl)
  refine ⟨?_, hv⟩
  rw [WF_eq_of_signedValue_eq (WF_negCore hnb) hext ?_ (hv.trans hvext.symm)]
  · simp [mostNegative]
  · rw [negCore_length_of_ne hnb hne, hlen, List.length_append, ← h]; rfl

end Sys2Proof.Machine
end

section
/-! SUPPORT. Subtract (R110 to R113): Add of the negated subtrahend, which is exact and at most one limb longer. -/

namespace Sys2Proof.Machine

theorem subCore_eq (a b : List Limb) : subCore a b = addCore a (negCore b).r := rfl

/-- R110: the negated subtrahend needs at most one limb more. -/
theorem WF_succ_negCore {m : Nat} {b : List Limb} (hb : WF m b = true) : WF (m + 1) (negCore b).r = true :=
  WF_mono (WF_negCore hb) ((negCore_length_le (WF_two_le_length hb)).trans (Nat.succ_le_succ (WF_length_le hb)))

section General
variable {m : Nat} {a b : List Limb} (ha : WF m a = true) (hb : WF m b = true)
  (hbad : signLimb (subCore a b).r ≠ badSign)
include ha hb hbad

theorem WF_subCore : WF (subCore a b).r.length (subCore a b).r = true :=
  WF_addCore (WF_mono ha (Nat.le_succ_of_le (WF_length_le ha))) (WF_succ_negCore hb) hbad

theorem signedValue_subCore (hz : (subCore a b).zfill = false) :
    signedValue (subCore a b).r = signedValue a - signedValue b := by
  have ha' := WF_mono ha (Nat.le_succ_of_le (WF_length_le ha))
  rw [subCore_eq, signedValue_addCore_of_unflagged ha' (WF_succ_negCore hb) hz hbad, signedValue_negCore hb,
    sub_eq_add_neg]

end General

/-- Settles O54: the negation is exact, and the final Add exact unless flagged. -/
theorem subtractLaw : Obligations.SubtractLaw := fun _ _ _ ha hb =>
  ⟨rfl, WF_succ_negCore hb, signedValue_negCore hb, fun hz hbad => signedValue_subCore ha hb hbad hz⟩

section NonNegative
variable {m : Nat} {a b : List Limb} (ha : WF m a = true) (hb : WF m b = true) (ha0 : isNegative a = false)
  (hb0 : isNegative b = false)

include hb hb0 in
theorem negCore_length_of_nonneg : (negCore b).r.length = b.length := by
  refine negCore_length_of_ne hb fun h => ?_
  rw [h, mostNegative, isNegative_append_maxLimb] at hb0
  cases hb0

include hb hb0 in
/-- The negation of a non-negative value is well-formed within the same capacity. -/
theorem WF_negCore_of_nonneg : WF m (negCore b).r = true :=
  WF_mono (WF_negCore hb) (negCore_length_of_nonneg hb hb0 ▸ WF_length_le hb)

include hb in
theorem isNegative_negCore_iff : isNegative (negCore b).r = true ↔ 0 < signedValue b := by
  rw [isNegative_iff_signedValue_neg (WF_negCore hb), signedValue_negCore hb]; omega

include hb ha0 hb0 in
/-- R111: only the negated subtrahend can be zero-filled. -/
theorem subCore_zfill_iff : (subCore a b).zfill = true ↔ 0 < signedValue b ∧ b.length < a.length := by
  rw [subCore_eq, addCore_zfill_iff, isNegative_negCore_iff hb, negCore_length_of_nonneg hb hb0, ha0]
  simp

include hb ha0 hb0 in
theorem subCore_zfill_of_le (h : a.length ≤ b.length) : (subCore a b).zfill = false := by
  rw [← Bool.not_eq_true, subCore_zfill_iff hb ha0 hb0]; omega

include ha hb hb0 in
/-- A difference whose subtrahend is not the shorter has the subtrahend's length. -/
theorem subCore_length_of_le (h : a.length ≤ b.length) : (subCore a b).r.length = b.length := by
  obtain ⟨k, hk⟩ := WF_exists_length_eq hb
  have hlen := negCore_length_of_nonneg hb hb0
  have hmax : max a.length (negCore b).r.length = k + 1 := by omega
  have hg : (subCore a b).grow = false := by
    have hlt := (effectiveValue_range ha (k := k) (by omega)).2
    have hb' := mt (isNegative_iff_signedValue_neg hb).2 (by simp [hb0])
    rw [subCore_eq, ← Bool.not_eq_true, addCore_grow_iff ha (WF_negCore_of_nonneg hb hb0) hmax,
      effectiveValue_eq_signedValue (v := (negCore b).r) (.inr (by omega)), signedValue_negCore hb]
    omega
  rw [subCore_eq, addCore_length, hmax, ← subCore_eq, hg, hk]; rfl

include ha hb ha0 hb0

/-- R111: a non-negative minuend never gives the sign limb B-2. -/
theorem subCore_signLimb_ne_badSign : signLimb (subCore a b).r ≠ badSign := fun h => by
  have := (negative_of_badSign ha (WF_negCore_of_nonneg hb hb0) h).1
  simp [ha0] at this

/-- R113: an exact difference has the sign of its value. -/
theorem isNegative_subCore_iff (hz : (subCore a b).zfill = false) :
    isNegative (subCore a b).r = true ↔ signedValue a < signedValue b := by
  have hbad := subCore_signLimb_ne_badSign ha hb ha0 hb0
  rw [isNegative_iff_signedValue_neg (WF_subCore ha hb hbad), signedValue_subCore ha hb hbad hz]; omega

end NonNegative

/-- Settles O55: the sum's laws with a non-negative first operand and a second whose sign is known. -/
theorem subtractOfNonNegativeLaw : Obligations.SubtractOfNonNegativeLaw := by
  refine ⟨fun m a b ha hb ha0 hb0 => ?_, by decide⟩
  have hlen := negCore_length_of_nonneg hb hb0
  have hzfill := subCore_zfill_iff hb ha0 hb0
  have hbad := subCore_signLimb_ne_badSign ha hb ha0 hb0
  refine ⟨hlen, isNegative_negCore_iff hb, hzfill, fun hz => ?_, signedValue_subCore ha hb hbad, hbad⟩
  obtain ⟨hpos, hlt⟩ := hzfill.1 hz
  have hneg := (isNegative_negCore_iff hb).2 hpos
  obtain ⟨-, hv⟩ := addCore_of_short (WF_negCore_of_nonneg hb hb0) ha hneg (hlen.symm ▸ hlt)
  rw [subCore_eq, addCore_comm, hv, signedValue_negCore hb, hlen]
  ring

/-- Settles O57: with no zero-fill the difference is exact, and so is its sign. -/
theorem differenceSignLaw : Obligations.DifferenceSignLaw :=
  ⟨fun _ _ _ ha hb ha0 hb0 h => isNegative_subCore_iff ha hb ha0 hb0 (subCore_zfill_of_le hb ha0 hb0 h), by decide⟩

/-! ## Self-subtraction (R112) -/

section Self
variable {m : Nat} {a : List Limb} (ha : WF m a = true)
include ha

/-- A value and its negation of the same length sum to zeros of that length. -/
theorem subCore_self_of_ne (h : a ≠ mostNegative a.length) : (subCore a a).r = List.replicate a.length 0#64 := by
  obtain ⟨k, hk⟩ := WF_exists_length_eq ha
  have hlen := negCore_length_of_ne ha h
  have hnb : WF m (negCore a).r = true := WF_mono (WF_negCore ha) (hlen ▸ WF_length_le ha)
  have hmax : max a.length (negCore a).r.length = k + 1 := by omega
  have hz : (subCore a a).zfill = false := addCore_zfill_of_length_eq hlen.symm
  have hsum : signedValue a + signedValue (negCore a).r = 0 := by rw [signedValue_negCore ha, add_neg_cancel]
  have hP := radix_pow_pos k
  obtain ⟨-, hwf, hrlen, hv⟩ := addCore_of_in_range ha hnb hmax hz (by omega) (by omega)
  exact List.eq_replicate_iff.2 ⟨hrlen.trans hk.symm, (WF_forall_eq_zero_iff hwf).2 (hv.trans hsum)⟩

/-- The digits of a value and its negation carry out, unless all are 0. -/
theorem subCore_self_cout_iff (h : a ≠ mostNegative a.length) : (subCore a a).cout = true ↔ ¬ ∀ x ∈ a, x = 0#64 := by
  have hU := unsignedValue_addCore (WF_limb_lt ha) (WF_limb_lt (WF_negCore ha))
  rw [← subCore_eq, subCore_self_of_ne ha h, negCore_length_of_ne ha h, max_self, List.take_of_length_le (by simp),
    unsignedValue_zeros] at hU
  rw [← unsignedValue_eq_zero_iff]
  cases hc : (subCore a a).cout with
  | false => simp [hc] at hU ⊢; omega
  | true =>
    refine iff_of_true rfl fun hzero => ?_
    rw [negCore_eq_of_zeros ha (unsignedValue_eq_zero_iff.1 hzero), hzero, hc] at hU
    simp [radix] at hU

/-- The most negative value is zero-filled against its own negation, which grew. -/
theorem subCore_self_mostNegative (h : a = mostNegative a.length) :
    (subCore a a).r = List.replicate a.length 0#64 ++ [1#64, 0#64] ∧
      signedValue (subCore a a).r = (radix : Int) ^ a.length ∧
      (subCore a a).zfill = true ∧ (subCore a a).grow = true := by
  have hs : isNegative a = true := by rw [h, mostNegative, isNegative_append_maxLimb]
  have hlen : (negCore a).r.length = a.length + 1 := by rw [negCore_length ha, (negCore_grow_iff ha).2 h]; rfl
  have hlt : a.length < (negCore a).r.length := by omega
  have hmax : max a.length (negCore a).r.length = a.length + 1 := by omega
  have hnb : WF (a.length + 1) (negCore a).r = true := WF_mono (WF_negCore ha) hlen.le
  have ha' : WF (a.length + 1) a = true := WF_mono ha (by omega)
  have hsum : effectiveValue a (a.length + 1) + effectiveValue (negCore a).r (a.length + 1) =
      (radix : Int) ^ a.length := by
    rw [effectiveValue_of_short hs (by omega), effectiveValue_eq_signedValue (.inr hlen.ge), signedValue_negCore ha]
    ring
  have hg := (addCore_grow_iff ha' hnb hmax).2 hsum.ge
  obtain ⟨hz, hv⟩ := addCore_of_short ha' hnb hs hlt
  obtain ⟨s, hslen, -, hr, he⟩ := addCore_of_grow ha' hnb hmax hg
  have hu : unsignedValue s = 0 := by zify; omega
  refine ⟨?_, ?_, hz, hg⟩
  · rw [subCore_eq, hr, List.eq_replicate_iff.2 ⟨hslen, unsignedValue_eq_zero_iff.1 hu⟩]
  · rw [subCore_eq, hv, signedValue_negCore ha, add_neg_cancel, zero_add]

end Self

/-- Settles O56: the two cases, with R108's shape of the negation. -/
theorem selfSubtractionLaw : Obligations.SelfSubtractionLaw := fun _ _ ha =>
  ⟨fun h => ⟨subCore_self_of_ne ha h, subCore_self_cout_iff ha h⟩,
    fun h => ⟨negCore_mostNegative ha h, subCore_self_mostNegative ha h⟩⟩

end Sys2Proof.Machine
end

section
/-! SUPPORT. Exact commands: what a committed well-formed result means for the flags and the destination (R127), and the
commands whose results are exact. -/

namespace Sys2Proof.Machine

/-! ## Running a command on held operands -/

theorem exec_add_of_holds {s : State} {ra rb : Fin 16} {a b : List Limb} (ha : s.holds ra a) (hb : s.holds rb b)
    (rd : Fin 16) : exec (.add rd ra rb) s = .next (retire rd (addCore a b) s) := by
  simp only [exec, execAdd, withOperand_holds _ _ ha, withOperand_holds _ _ hb]

theorem exec_sub_of_holds {s : State} {ra rb : Fin 16} {a b : List Limb} (ha : s.holds ra a) (hb : s.holds rb b)
    (rd : Fin 16) : exec (.sub rd ra rb) s = .next (retire rd (subCore a b) s) := by
  simp only [exec, execSub, withOperand_holds _ _ ha, withOperand_holds _ _ hb]; rfl

section Committed
variable {rd : Fin 16} {c : CoreOut} {s t : State} (h : Committed rd c s t)
include h

/-- A committed well-formed result is what the destination holds. -/
theorem Committed.holds (hwf : WF s.config.maxLimbs c.r = true) : t.holds rd c.r :=
  ⟨h.value, by rw [h.rest.config, hwf]⟩

theorem Committed.signbad_of_WF {m : Nat} (hwf : WF m c.r = true) : t.status.signbad = false := by
  have := WF_signLimb hwf
  rw [← Bool.not_eq_true, h.signbad]; tauto

/-- NEG is the sign of a well-formed result's value. -/
theorem Committed.neg_iff {m : Nat} (hwf : WF m c.r = true) : t.status.neg = true ↔ signedValue c.r < 0 := by
  rw [h.neg, ← isNegative_iff, isNegative_iff_signedValue_neg hwf]

theorem Committed.zero_iff {m : Nat} (hwf : WF m c.r = true) : t.status.zero = true ↔ signedValue c.r = 0 :=
  h.zero.trans (WF_forall_eq_zero_iff hwf)

end Committed

/-- Settles O12: equal lengths leave nothing to zero-fill, and the sum's hypothesis excludes the sign limb B-2. -/
theorem addOfEqualLengthsIsExact : Obligations.AddOfEqualLengthsIsExact := by
  intro s rd ra rb a b ha hb hlen hroom hlo
  obtain ⟨k, hk⟩ := WF_exists_length_eq ha.2
  have hmax : max a.length b.length = k + 1 := by omega
  have hz := addCore_zfill_of_length_eq hlen
  have hbad : signLimb (addCore a b).r ≠ badSign := by
    rw [ne_eq, signLimb_addCore_eq_badSign_iff ha.2 hb.2 hmax, effectiveValue_add_of_zfill hmax hz]
    simpa [hk] using hlo
  have hfits : (addCore a b).r.length ≤ s.config.maxLimbs := by
    have := addCore_length_le a b
    omega
  have hv := signedValue_addCore_of_unflagged ha.2 hb.2 hz hbad
  have hwf := WF_mono (WF_addCore ha.2 hb.2 hbad) hfits
  have hc := retire_committed (rd := rd) hfits
  exact ⟨_, _, exec_add_of_holds ha hb rd, hc.holds hwf, hv, hc.err, hc.zfill.trans hz, hc.signbad_of_WF hwf,
    hv ▸ hc.neg_iff hwf, hv ▸ hc.zero_iff hwf⟩

/-- Settles O14: a difference of non-negative values has the longer length, so it needs no room to grow. -/
theorem subOfNonNegativeIsExact : Obligations.SubOfNonNegativeIsExact := by
  intro s rd ra rb a b ha hb ha0 hb0 hlen
  have hz := subCore_zfill_of_le hb.2 ha0 hb0 hlen
  have hbad := subCore_signLimb_ne_badSign ha.2 hb.2 ha0 hb0
  have hv := signedValue_subCore ha.2 hb.2 hbad hz
  have hfits : (subCore a b).r.length ≤ s.config.maxLimbs :=
    subCore_length_of_le ha.2 hb.2 hb0 hlen ▸ WF_length_le hb.2
  have hwf := WF_mono (WF_subCore ha.2 hb.2 hbad) hfits
  have hc := retire_committed (rd := rd) hfits
  refine ⟨_, _, exec_sub_of_holds ha hb rd, hc.holds hwf, hv, hc.err, hc.zfill.trans hz, hc.signbad_of_WF hwf, ?_⟩
  rw [hc.neg, ← isNegative_iff, isNegative_subCore_iff ha.2 hb.2 ha0 hb0 hz]

/-- A command that ends with ERR 0 committed what its operation computes (R122, R150). -/
theorem exec_committed {i : Instr} {s t : State} (h : exec i s = .next t) (herr : t.status.err = .noError) :
    ∃ c, s.computes i c ∧ c.r.length ≤ s.config.maxLimbs ∧ Committed i.dest c s t := by
  rcases exec_cases h with ⟨e, he, rfl⟩ | ⟨c, hcomp, rfl⟩
  · exact absurd herr he
  · rcases retire_cases i.dest c s with ⟨-, hr⟩ | ⟨hfits, hc⟩
    · rw [hr] at herr; cases herr
    · exact ⟨c, hcomp, hfits, hc⟩

/-- Settles O59: SIGNBAD 0 excludes the sign limb B-2, and without it and a zero-fill each operation is exact. -/
theorem unflaggedCommandsAreExact : Obligations.UnflaggedCommandsAreExact := by
  intro i s t h herr hz hsign
  obtain ⟨c, hcomp, hfits, hc⟩ := exec_committed h herr
  rw [hc.zfill] at hz
  have hbad : signLimb c.r ≠ badSign := fun hb => by
    have := hc.signbad.2 (by rw [hb]; decide)
    simp [hsign] at this
  cases i with
  | add rd ra rb =>
    obtain ⟨a, b, ha, hb, rfl⟩ := hcomp
    exact ⟨a, b, _, ha, hb, hc.holds (WF_mono (WF_addCore ha.2 hb.2 hbad) hfits),
      signedValue_addCore_of_unflagged ha.2 hb.2 hz hbad⟩
  | neg rd ra =>
    obtain ⟨a, ha, rfl⟩ := hcomp
    exact ⟨a, _, ha, hc.holds (WF_mono (WF_negCore ha.2) hfits), signedValue_negCore ha.2⟩
  | sub rd ra rb =>
    obtain ⟨a, b, ha, hb, rfl⟩ := hcomp
    exact ⟨a, b, _, ha, hb, hc.holds (WF_mono (WF_subCore ha.2 hb.2 hbad) hfits),
      signedValue_subCore ha.2 hb.2 hbad hz⟩

end Sys2Proof.Machine
end

section
/-! SUPPORT. The command cycle (R120 to R122, R141 to R144): acceptance and dropped writes, what the execution step of a
pending word answers, and that a pending command executes. -/

namespace Sys2Proof.Machine

/-! ## Acceptance and dropped writes -/

/-- Settles O5: the whole next state of an accepted and of a dropped CMD write. -/
theorem cmdWriteAcceptedOnlyWhenIdle : Obligations.CmdWriteAcceptedOnlyWhenIdle := by
  intro s w rest hr hs
  rw [step_write (slot := .cmd) hr trivial hs]
  constructor
  · intro hb
    rw [writeSlot_cmd_idle w (s := { s with schedule := rest }) hb]
    rfl
  · intro hb
    rw [writeSlot_cmd_busy w (s := { s with schedule := rest }) hb]
    rfl

/-- Settles O30: the whole next state of a dropped LEN or LIMB write. -/
theorem registerWriteDroppedWhileBusy : Obligations.RegisterWriteDroppedWhileBusy := by
  intro s slot w rest hr hslot hl hb hs
  rw [step_write hr hl hs, writeSlot_register_busy w (s := { s with schedule := rest }) hb hslot]
  rfl

/-- With BUSY = 1 and ERR and the result flags 0, STATUS reads as BUSY and the sticky bits alone (R27, R143). -/
theorem statusWord_of_busy_clear {s : State} (hb : s.busy = true) (hc : s.status.clear) : s.statusWord =
    BitVec.ofNat 64 (1 + 2 ^ 16 * s.status.ovr.toNat + 2 ^ 17 * s.status.wbusy.toNat) := by
  obtain ⟨herr, hcout, hgrow, hneg, hzero, hsignbad, hzfill⟩ := Status.clear_iff.1 hc
  rw [State.statusWord, hb, herr, hcout, hgrow, hneg, hzero, hsignbad, hzfill]
  cases s.status.ovr <;> cases s.status.wbusy <;> rfl

/-- Settles O32: in a good state a command in flight finds reset not asserted, and ERR and the flags 0. -/
theorem busyStatusReadShowsNoFlags : Obligations.BusyStatusReadShowsNoFlags := by
  intro s rest hi hb hs
  exact step_read (slot := .status) (hi.resetAsserted_of_busy hb) trivial hs
    (congrArg some (statusWord_of_busy_clear hb (hi.busy_clear hb)))

/-! ## The execution step -/

theorem busy_eq_false_iff {s : State} : s.busy = false ↔ s.pend = none := by simp

theorem execWord_ok {w : Word64} {i : Instr} (h : decode w = .ok i) (s : State) : execWord w s = exec i s := by
  rw [execWord, h]

theorem execWord_error {w : Word64} {e : DecodeError} (h : decode w = .error e) (s : State) :
    execWord w s = .next (raise (decodeErrCode e) s) := by
  rw [execWord, h]

/-- A step on the execution event executes the pending word. -/
theorem step_execute_some {s : State} {w : Word64} {rest : List Event} (hp : s.pend = some w)
    (hs : s.schedule = .execute :: rest) : step s = execWord w { s with schedule := rest } :=
  (step_execute hs).trans (executeStep_some (s := { s with schedule := rest }) hp)

/-- With no event left, none is used up. -/
theorem popped_of_nil {s : State} (hs : s.schedule = []) : s.popped = s := by
  cases s; cases hs; rfl

theorem popped_of_cons {s : State} {e : Event} {rest : List Event} (hs : s.schedule = e :: rest) :
    s.popped = { s with schedule := rest } := by
  rw [State.popped, hs, List.tail_cons]

/-- When the execution step of the pending word is next, the step executes the word (R121). -/
theorem step_executesNext {s : State} {w : Word64} (hx : s.executesNext) (hp : s.pend = some w) :
    step s = execWord w s.popped := by
  rcases hx.2 with hs | ⟨rest, hs⟩
  · rw [step_nil hs, executeStep_some hp, popped_of_nil hs]
  · rw [step_execute_some hp hs, popped_of_cons hs]

/-- Settles O6, for the two ways the execution step can be next. -/
theorem stepRunsDecodedCommand : Obligations.StepRunsDecodedCommand := by
  intro s w i hp hd
  refine ⟨fun hs => ?_, fun rest hs => ?_⟩
  · rw [step_nil hs, executeStep_some hp, execWord_ok hd]
  · rw [step_execute_some hp hs, execWord_ok hd]

/-- Settles O7: a decode error is raised, and raising it changes nothing else. -/
theorem undecodableWordRaisesItsCode : Obligations.UndecodableWordRaisesItsCode := by
  intro s w rest hp hs
  rw [step_execute_some hp hs]
  exact ⟨fun hd => execWord_error hd _, fun hd => execWord_error hd _⟩

/-- Settles O8: with nothing pending the execution step answers the state it finds. -/
theorem idleMachineStays : Obligations.IdleMachineStays := by
  refine ⟨fun s ⟨hs, hb⟩ => ?_, fun s rest hb hs => ?_⟩
  · rw [step_nil hs, executeStep_none (busy_eq_false_iff.1 hb)]
  · rw [step_execute hs, executeStep_none (s := { s with schedule := rest }) (busy_eq_false_iff.1 hb)]

/-! ## Runs -/

theorem runsTo_zero_iff {s t : State} : RunsTo 0 s t ↔ s = t :=
  ⟨fun h => by cases h; rfl, fun h => h ▸ rfl⟩

/-- A machine's run of one step more begins with a step. -/
theorem run_succ_eq_next_iff (M : Host.Core) {n : Nat} {s u : M.State} :
    M.run (n + 1) s = .next u ↔ ∃ t, M.step s = .next t ∧ M.run n t = .next u := by
  rw [Host.Core.run]
  cases M.step s with
  | next t => simp
  | fault r | refused r => simp

theorem runsTo_succ_iff {n : Nat} {s u : State} : RunsTo (n + 1) s u ↔ ∃ t, step s = .next t ∧ RunsTo n t u :=
  run_succ_eq_next_iff core

/-- A run of one step more ends with a step. -/
theorem step_of_runsTo_succ {n : Nat} {s t u : State} (ht : RunsTo n s t) (hu : RunsTo (n + 1) s u) :
    step t = .next u := by
  induction n generalizing s with
  | zero =>
    obtain rfl := runsTo_zero_iff.1 ht
    obtain ⟨_, hstep, h0⟩ := runsTo_succ_iff.1 hu
    exact runsTo_zero_iff.1 h0 ▸ hstep
  | succ n ih =>
    obtain ⟨v, hv, ht⟩ := runsTo_succ_iff.1 ht
    obtain ⟨v', hv', hu⟩ := runsTo_succ_iff.1 hu
    obtain rfl : v = v' := by simpa [hv] using hv'
    exact ih ht hu

/-- While BUSY = 1 a bus event leaves the registers and PEND, and is used up (R62). -/
theorem step_bus_busy {s t : State} {a : BusAccess} {rest : List Event} (hb : s.busy = true)
    (hs : s.schedule = .bus a :: rest) (h : step s = .next t) :
    t.schedule = rest ∧ t.pend = s.pend ∧ t.vregs = s.vregs := by
  rw [step_cons hs] at h
  obtain ⟨ovr, wbusy, rs, rfl⟩ := busAccess_busy (s := { s with schedule := rest }) hb h
  exact ⟨rfl, rfl, rfl⟩

/-- A run without resets and faults reaches the execution step of the pending word after at most as many steps as there
are events, by induction on the events: each is the execution step or an access, which leaves the command in flight. -/
theorem exists_runsTo_executesNext {w : Word64} (es : List Event) {s : State} (hs : s.schedule = es)
    (hp : s.pend = some w) (hnr : ∀ e ∈ es, e ≠ .assertReset ∧ e ≠ .releaseReset)
    (hrun : ∀ n ≤ es.length, ∃ t, RunsTo n s t) :
    ∃ n ≤ es.length, ∃ t, RunsTo n s t ∧ t.executesNext ∧ t.pend = some w ∧ t.vregs = s.vregs := by
  induction es generalizing s with
  | nil => exact ⟨0, le_rfl, s, runsTo_zero_iff.2 rfl, ⟨by simp [hp], .inl hs⟩, hp, rfl⟩
  | cons e rest ih =>
    cases e with
    | execute => exact ⟨0, Nat.zero_le _, s, runsTo_zero_iff.2 rfl, ⟨by simp [hp], .inr ⟨rest, hs⟩⟩, hp, rfl⟩
    | assertReset => exact absurd rfl (hnr _ List.mem_cons_self).1
    | releaseReset => exact absurd rfl (hnr _ List.mem_cons_self).2
    | bus a =>
      obtain ⟨_, h1⟩ := hrun 1 (Nat.succ_pos _)
      obtain ⟨s', hstep, -⟩ := runsTo_succ_iff.1 h1
      obtain ⟨hs', hp', hv'⟩ := step_bus_busy (by simp [hp]) hs hstep
      have hrun' (n : Nat) (hn : n ≤ rest.length) : ∃ t, RunsTo n s' t := by
        obtain ⟨t, ht⟩ := hrun (n + 1) (Nat.succ_le_succ hn)
        obtain ⟨s'', hstep', ht⟩ := runsTo_succ_iff.1 ht
        obtain rfl : s' = s'' := by simpa [hstep] using hstep'
        exact ⟨t, ht⟩
      obtain ⟨n, hn, t, ht, hx, htp, htv⟩ :=
        ih hs' (hp'.trans hp) (fun e he => hnr e (List.mem_cons_of_mem _ he)) hrun'
      exact ⟨n + 1, Nat.succ_le_succ hn, t, runsTo_succ_iff.2 ⟨s', hstep, ht⟩, hx, htp, htv.trans hv'⟩

/-- Settles O43: the run reaches the execution step of `w`, and the step after it executes `w`. -/
theorem pendingCommandExecutes : Obligations.PendingCommandExecutes := by
  intro s w hp hnr hrun
  obtain ⟨n, hn, t, ht, hx, htp, htv⟩ := exists_runsTo_executesNext s.schedule rfl hp hnr
    fun n hn => hrun n (Nat.le_succ_of_le hn)
  obtain ⟨u, hu⟩ := hrun (n + 1) (Nat.succ_le_succ hn)
  have hexec : execWord w t.popped = .next u := step_executesNext hx htp ▸ step_of_runsTo_succ ht hu
  exact ⟨n, hn, t, u, ht, hx, htp, htv, hu, hexec, busy_eq_false_iff.2 (execWord_frame hexec).2⟩

end Sys2Proof.Machine
end

section
/-! SUPPORT. What the commands answer: completion on held operands (R126, R127), the operand checks (R123), capacity
(R124), and that the destination plays no part in the result (R126). -/

namespace Sys2Proof.Machine

/-! ## Completion -/

theorem exec_neg_of_holds {s : State} {ra : Fin 16} {a : List Limb} (ha : s.holds ra a) (rd : Fin 16) :
    exec (.neg rd ra) s = .next (retire rd (negCore a) s) := by
  simp only [exec, execNeg, withOperand_holds _ _ ha]

/-- Settles O9: the sum is retired, and it fits. -/
theorem addCommitsItsSum : Obligations.AddCommitsItsSum := fun _ rd _ _ _ _ ha hb hfits =>
  ⟨_, exec_add_of_holds ha hb rd, retire_committed hfits⟩

/-- Settles O10: the negation is retired, and it fits. -/
theorem negCommitsItsNegation : Obligations.NegCommitsItsNegation := fun _ rd _ _ ha hfits =>
  ⟨_, exec_neg_of_holds ha rd, retire_committed hfits⟩

/-- Settles O11: the difference is retired, and it fits. -/
theorem subCommitsItsDifference : Obligations.SubCommitsItsDifference := fun _ rd _ _ _ _ ha hb hfits =>
  ⟨_, exec_sub_of_holds ha hb rd, retire_committed hfits⟩

/-- Settles O13: a shorter operand leaves room for a negation that grows, and negation is exact. -/
theorem negIsExactWithItsFlags : Obligations.NegIsExactWithItsFlags := by
  intro s rd ra a ha hroom
  have hfits : (negCore a).r.length ≤ s.config.maxLimbs := (negCore_length_le (WF_two_le_length ha.2)).trans hroom
  have hwf := WF_mono (WF_negCore ha.2) hfits
  have hv := signedValue_negCore ha.2
  have hc := retire_committed (rd := rd) hfits
  refine ⟨_, _, exec_neg_of_holds ha rd, hc.holds hwf, hv, hc.err, hc.cout ▸ negCore_cout_iff ha.2,
    hc.grow ▸ negCore_grow_iff ha.2, hc.zfill.trans (negCore_zfill ha.2), hc.signbad_of_WF hwf, ?_, ?_⟩
  · rw [hc.neg_iff hwf, hv, neg_lt_zero]
  · rw [hc.zero_iff hwf, hv, neg_eq_zero, WF_forall_eq_zero_iff ha.2]

/-! ## The operand checks -/

/-- A command whose first source has an unwritten word in its range faults (R38, R123). -/
theorem exec_unwrittenA {s : State} {i : Instr} (h : s.unwritten i.sourceA) :
    exec i s = .fault .unwrittenOperand := by
  cases i with
  | add rd ra rb | neg rd ra | sub rd ra rb => exact withOperand_unwritten _ _ h

/-- With a well-formed first source, ADD and SUB answer what the check of the second one answers, if it answers at all
before the operation (R123). -/
theorem exec_of_secondOperand {s : State} {ra rb : Fin 16} {a : List Limb} (ha : s.holds ra a) (rd : Fin 16)
    {o : Host.Outcome State Fault Refusal} (h : ∀ go, withOperand s rb .malformedB go = o) :
    exec (.add rd ra rb) s = o ∧ exec (.sub rd ra rb) s = o :=
  ⟨(withOperand_holds _ _ ha).trans (h _), (withOperand_holds _ _ ha).trans (h _)⟩

/-- Settles O19, a clause for each source and each way it can fail. -/
theorem operandChecksInOrder : Obligations.OperandChecksInOrder := by
  intro s rd ra rb errA errB
  refine ⟨fun hm => ?_, fun hu => ?_, fun a ha hm => ?_, fun a ha hu => ?_⟩
  · exact ⟨exec_malformedA (i := .add rd ra rb) hm, exec_malformedA (i := .neg rd ra) hm,
      exec_malformedA (i := .sub rd ra rb) hm⟩
  · exact ⟨exec_unwrittenA (i := .add rd ra rb) hu, exec_unwrittenA (i := .neg rd ra) hu,
      exec_unwrittenA (i := .sub rd ra rb) hu⟩
  · exact exec_of_secondOperand ha rd fun _ => withOperand_malformed _ _ hm
  · exact exec_of_secondOperand ha rd fun _ => withOperand_unwritten _ _ hu

/-! ## Capacity -/

/-- Only a result that does not fit ends with CAPACITY (R124). -/
theorem lt_length_of_retire_capacity {rd : Fin 16} {c : CoreOut} {s : State}
    (h : (retire rd c s).status.err = .capacity) : s.config.maxLimbs < c.r.length := by
  by_contra hle
  have hc := retire_committed (rd := rd) (not_lt.1 hle)
  rw [hc.err] at h
  cases h

/-- Where `n` positions fit, one more limb does not exactly when `n` is all of them and the result grows (R124). -/
theorem eq_and_grow_of_overlong {n m : Nat} {grow : Bool} (hn : n ≤ m) (h : m < n + grow.toNat) :
    n = m ∧ grow = true := by
  cases grow with
  | false => exact absurd h (Nat.not_lt.2 hn)
  | true => exact ⟨le_antisymm hn (Nat.lt_succ_iff.1 h), rfl⟩

/-- Settles O21: a result is longer than its operands only by growth, and NEG grows only on the most negative value. -/
theorem capacityOnlyAtFullLength : Obligations.CapacityOnlyAtFullLength := by
  intro s t rd ra rb a b ha herr
  refine ⟨fun h => ?_, fun hb h => ?_⟩
  · rw [exec_neg_of_holds ha] at h
    cases h
    have hlong := lt_length_of_retire_capacity herr
    rw [negCore_length ha.2] at hlong
    obtain ⟨hfull, hgrow⟩ := eq_and_grow_of_overlong (WF_length_le ha.2) hlong
    exact hfull ▸ (negCore_grow_iff ha.2).1 hgrow
  · rw [exec_add_of_holds ha hb] at h
    cases h
    have hlong := lt_length_of_retire_capacity herr
    rw [addCore_length] at hlong
    exact eq_and_grow_of_overlong (max_le (WF_length_le ha.2) (WF_length_le hb.2)) hlong

/-! ## The destination plays no part in the result -/

/-- What one operation answers in `s` with the destinations `rd` and `rd'`: the same error, the same result retired, or
the same fault. -/
inductive SameButDestination (rd rd' : Fin 16) (s : State) :
    Host.Outcome State Fault Refusal → Host.Outcome State Fault Refusal → Prop
  | raised (e : ErrCode) (he : e ≠ .noError) : SameButDestination rd rd' s (.next (raise e s)) (.next (raise e s))
  | retired (c : CoreOut) : SameButDestination rd rd' s (.next (retire rd c s)) (.next (retire rd' c s))
  | fault (f : Fault) : SameButDestination rd rd' s (.fault f) (.fault f)

section Destination
variable {rd rd' : Fin 16} {s : State}

theorem SameButDestination.withOperand (k : Fin 16) {e : ErrCode} (he : e ≠ .noError)
    {go go' : List Limb → Host.Outcome State Fault Refusal} (hgo : ∀ v, SameButDestination rd rd' s (go v) (go' v)) :
    SameButDestination rd rd' s (withOperand s k e go) (withOperand s k e go') := by
  rw [Machine.withOperand, Machine.withOperand]
  cases readOperand s k with
  | ok v => exact hgo v
  | malformed => exact .raised e he
  | unwritten => exact .fault _

variable (rd rd' s) (ra rb : Fin 16)

theorem sameButDestination_add : SameButDestination rd rd' s (exec (.add rd ra rb) s) (exec (.add rd' ra rb) s) :=
  .withOperand ra (e := .malformedA) nofun fun a =>
    .withOperand rb (e := .malformedB) nofun fun b => .retired (addCore a b)

theorem sameButDestination_neg : SameButDestination rd rd' s (exec (.neg rd ra) s) (exec (.neg rd' ra) s) :=
  .withOperand ra (e := .malformedA) nofun fun a => .retired (negCore a)

theorem sameButDestination_sub : SameButDestination rd rd' s (exec (.sub rd ra rb) s) (exec (.sub rd' ra rb) s) :=
  .withOperand ra (e := .malformedA) nofun fun a =>
    .withOperand rb (e := .malformedB) nofun fun b => .retired (subCore a b)

end Destination

/-- Two destinations: the same STATUS and, where the operation commits, the same value (R126). -/
theorem SameButDestination.result {rd rd' : Fin 16} {s t t' : State} {o o' : Host.Outcome State Fault Refusal}
    (h : SameButDestination rd rd' s o o') (ht : o = .next t) (ht' : o' = .next t') :
    t.status = t'.status ∧ (t.status.err = .noError → t.value? rd = t'.value? rd') := by
  cases h with
  | raised e he => cases ht; cases ht'; exact ⟨rfl, fun herr => absurd herr he⟩
  | retired c =>
    cases ht; cases ht'
    rcases retire_cases rd c s with ⟨hlt, hr⟩ | ⟨hle, hc⟩
    · rw [hr, retire_capacity hlt]; exact ⟨rfl, nofun⟩
    · refine ⟨?_, fun _ => hc.value.trans (retire_committed hle).value.symm⟩
      rw [retire_of_le hle, retire_of_le hle]
  | fault f => cases ht

/-- Settles O17: each operation reads the same operands whatever its destination. -/
theorem aliasedDestinationGivesSameResult : Obligations.AliasedDestinationGivesSameResult :=
  fun s _ _ rd rd' ra rb => ⟨(sameButDestination_add rd rd' s ra rb).result,
    (sameButDestination_neg rd rd' s ra).result, (sameButDestination_sub rd rd' s ra rb).result⟩

end Sys2Proof.Machine
end

section
/-! SUPPORT. Command errors (R150 to R159): a command is all or nothing, a result that is too long writes nothing, and
the code an executed word leaves in ERR is the first that applies. -/

namespace Sys2Proof

/-! ## The decode checks on a command's fields (R72, R75, R76) -/

theorem Command.legalOpcode_iff {c : Command} : c.legalOpcode = true ↔ c.opc = 1#8 ∨ c.opc = 2#8 ∨ c.opc = 3#8 := by
  simp [Command.legalOpcode, or_assoc]

theorem Command.reservedClear_iff {c : Command} : c.reservedClear = true ↔ c.rsv = 0#44 := by
  simp [Command.reservedClear]

theorem Command.negRbClear_iff {c : Command} : c.negRbClear = true ↔ (c.opc = 2#8 → c.rb = 0#4) := by
  simp [Command.negRbClear, imp_iff_not_or]

theorem Command.wellFormed_iff {c : Command} : c.wellFormed = true ↔
    (c.opc = 1#8 ∨ c.opc = 2#8 ∨ c.opc = 3#8) ∧ c.rsv = 0#44 ∧ (c.opc = 2#8 → c.rb = 0#4) := by
  rw [Command.wellFormed, Bool.and_eq_true, Bool.and_eq_true, legalOpcode_iff, reservedClear_iff, negRbClear_iff,
    and_assoc]

section Decode
variable {w : Word64}

theorem decode_of_legalOpcode_false (h : (Command.ofWord w).legalOpcode = false) :
    decode w = .error .illegalOpcode :=
  decode_illegalOpcode fun hopc => by simp [Command.legalOpcode_iff.2 hopc] at h

/-- A legal opcode with either reserved-field check failed is a reserved-field error (R76). -/
theorem decode_of_reserved (hop : (Command.ofWord w).legalOpcode = true)
    (h : (Command.ofWord w).reservedClear = false ∨ (Command.ofWord w).negRbClear = false) :
    decode w = .error .reservedField := by
  rcases h with hrsv | hrb
  · rw [← Bool.not_eq_true, Command.reservedClear_iff] at hrsv
    exact decode_rsv_ne_zero (Command.legalOpcode_iff.1 hop) hrsv
  · rw [← Bool.not_eq_true, Command.negRbClear_iff, Classical.not_imp] at hrb
    exact decode_neg_rb_ne_zero hrb.1 hrb.2

/-- A well-formed word is an operation whose first source is its RA field (R70). -/
theorem decode_of_wellFormed (h : (Command.ofWord w).wellFormed = true) :
    ∃ i, decode w = .ok i ∧ i.sourceA = regIndex (Command.ofWord w).ra := by
  obtain ⟨hadd | hneg | hsub, hrsv, hrb⟩ := Command.wellFormed_iff.1 h
  · exact ⟨_, decode_add hadd hrsv, rfl⟩
  · exact ⟨_, decode_neg hneg hrsv (hrb hneg), rfl⟩
  · exact ⟨_, decode_sub hsub hrsv, rfl⟩

end Decode

end Sys2Proof

namespace Sys2Proof.Machine

/-! ## How a command ends -/

/-- A result that is too long leaves nothing but CAPACITY behind (R124, R155). -/
theorem retire_errored {rd : Fin 16} {c : CoreOut} {s : State} (h : s.config.maxLimbs < c.r.length) :
    Errored .capacity s (retire rd c s) := by
  rw [retire_capacity h]
  exact ⟨rfl, rfl, rfl, rfl, ⟨rfl, rfl, rfl, rfl, rfl, rfl, rfl⟩⟩

/-- The code retiring leaves: CAPACITY exactly when the result is too long (R150, R155). -/
theorem retire_err (rd : Fin 16) (c : CoreOut) (s : State) :
    (retire rd c s).status.err = if s.config.maxLimbs < c.r.length then .capacity else .noError := by
  split
  case isTrue hlong => exact (retire_errored hlong).err
  case isFalse hfits => exact (retire_committed (not_lt.1 hfits)).err

/-- Settles O16: a command raises an error, or retires its operation's outputs, which are committed if they fit. -/
theorem commandIsAllOrNothing : Obligations.CommandIsAllOrNothing := by
  intro i s t h
  rcases exec_cases h with ⟨e, he, rfl⟩ | ⟨c, hcomp, rfl⟩
  · exact .inr ⟨e, he, raise_errored e s⟩
  · rcases lt_or_ge s.config.maxLimbs c.r.length with hlong | hfits
    · exact .inr ⟨.capacity, nofun, retire_errored hlong⟩
    · exact .inl ⟨c, hcomp, retire_committed hfits⟩

/-- Settles O20: on held operands each operation retires its core result, here one that is too long. -/
theorem overlongResultRaisesCapacity : Obligations.OverlongResultRaisesCapacity :=
  ⟨rfl, fun _ rd _ _ _ _ ha =>
    ⟨fun hlong => ⟨_, exec_neg_of_holds ha rd, retire_errored hlong⟩,
      fun hb hlong => ⟨_, exec_add_of_holds ha hb rd, retire_errored hlong⟩,
      fun hb hlong => ⟨_, exec_sub_of_holds ha hb rd, retire_errored hlong⟩⟩⟩

/-! ## The code an executed word reports (R158) -/

section Executed
variable {w : Word64} {s t : State} (h : execWord w s = .next t)
include h

/-- Executing a word has one answer. -/
theorem err_of_execWord_eq {u : State} (hu : execWord w s = .next u) : t.status.err = u.status.err := by
  rw [h] at hu
  cases hu
  rfl

theorem err_of_decode_error {e : DecodeError} (he : decode w = .error e) : t.status.err = decodeErrCode e :=
  err_of_execWord_eq h (execWord_error he s)

theorem err_of_malformedA (hwf : (Command.ofWord w).wellFormed = true)
    (hm : s.malformed (regIndex (Command.ofWord w).ra)) : t.status.err = .malformedA := by
  obtain ⟨i, hi, hra⟩ := decode_of_wellFormed hwf
  exact err_of_execWord_eq h ((execWord_ok hi s).trans (exec_malformedA (hra ▸ hm)))

/-- ADD and SUB look at RB, and NEG does not (R122). -/
theorem err_of_malformedB {a : List Limb} (hwf : (Command.ofWord w).wellFormed = true)
    (hneg : (Command.ofWord w).opc ≠ 2#8) (ha : s.holds (regIndex (Command.ofWord w).ra) a)
    (hm : s.malformed (regIndex (Command.ofWord w).rb)) : t.status.err = .malformedB := by
  obtain ⟨hopc, hrsv, -⟩ := Command.wellFormed_iff.1 hwf
  obtain ⟨hadd, hsub⟩ := exec_of_secondOperand ha (regIndex (Command.ofWord w).rd)
    fun go => withOperand_malformed .malformedB go hm
  rcases hopc with h1 | h2 | h3
  · exact err_of_execWord_eq h ((execWord_ok (decode_add h1 hrsv) s).trans hadd)
  · exact absurd h2 hneg
  · exact err_of_execWord_eq h ((execWord_ok (decode_sub h3 hrsv) s).trans hsub)

/-- A word whose operation retires leaves CAPACITY or no error. -/
theorem err_of_retire {i : Instr} {rd : Fin 16} {c : CoreOut} (hi : decode w = .ok i)
    (hx : exec i s = .next (retire rd c s)) :
    t.status.err = if s.config.maxLimbs < c.r.length then .capacity else .noError :=
  (err_of_execWord_eq h ((execWord_ok hi s).trans hx)).trans (retire_err rd c s)

end Executed

/-- Settles O22: the decode checks, then the operand checks, then the capacity check, a clause for each. -/
theorem firstApplicableErrorIsReported : Obligations.FirstApplicableErrorIsReported := by
  intro w s t h c
  refine ⟨fun hop => err_of_decode_error h (decode_of_legalOpcode_false hop),
    fun hop hres => err_of_decode_error h (decode_of_reserved hop hres), err_of_malformedA h,
    fun a => err_of_malformedB h, fun a hwf hneg ha => ?_, fun a b hwf hadd ha hb => ?_, fun a b hwf hsub ha hb => ?_⟩
  all_goals obtain ⟨-, hrsv, hrb⟩ := Command.wellFormed_iff.1 hwf
  · exact err_of_retire h (decode_neg hneg hrsv (hrb hneg)) (exec_neg_of_holds ha _)
  · exact err_of_retire h (decode_add hadd hrsv) (exec_add_of_holds ha hb _)
  · exact err_of_retire h (decode_sub hsub hrsv) (exec_sub_of_holds ha hb _)

end Sys2Proof.Machine
end

section
/-! SUPPORT. Reset and hazards (R170 to R175): which committed results are operands again, the accesses that are not the
SMA's to answer, and the reset input. -/

namespace Sys2Proof.Machine

/-! ## Committed results -/

/-- Every operation on well-formed operands gives a well-formed list but for its length, unless the sign limb is B-2 (R103,
R105). -/
theorem WF_of_computes {i : Instr} {s : State} {c : CoreOut} (h : s.computes i c) (hbad : signLimb c.r ≠ badSign) :
    WF c.r.length c.r = true := by
  cases i with
  | add rd ra rb => obtain ⟨a, b, ha, hb, rfl⟩ := h; exact WF_addCore ha.2 hb.2 hbad
  | neg rd ra => obtain ⟨a, ha, rfl⟩ := h; exact WF_negCore ha.2
  | sub rd ra rb => obtain ⟨a, b, ha, hb, rfl⟩ := h; exact WF_subCore ha.2 hb.2 hbad

/-- The sign limb B-2 is flagged (R105, R127). -/
theorem Committed.signLimb_ne_badSign {rd : Fin 16} {c : CoreOut} {s t : State} (h : Committed rd c s t)
    (hsign : t.status.signbad = false) : signLimb c.r ≠ badSign := by
  intro hb
  have hset : t.status.signbad = true := h.signbad.2 (hb ▸ by decide)
  simp [hsign] at hset

/-- Settles O58: a list the destination holds is the committed one, whose sign limb is then valid; and a result that is not
well-formed has the sign limb B-2. -/
theorem committedResultIsWellFormedUnlessSignbad : Obligations.CommittedResultIsWellFormedUnlessSignbad := by
  intro i s t h herr
  obtain ⟨c, hcomp, hfits, hc⟩ := exec_committed h herr
  constructor
  · rintro ⟨r, hr, hwf⟩
    obtain rfl : c.r = r := Option.some.inj (hc.value.symm.trans hr)
    exact hc.signbad_of_WF hwf
  · intro hsign
    exact ⟨c.r, hc.holds (WF_mono (WF_of_computes hcomp (hc.signLimb_ne_badSign hsign)) hfits)⟩

/-! ## Accesses in reset and outside the window -/

/-- A step on a bus event while reset is asserted (R170, R175). -/
theorem step_bus_inReset {s : State} {a : BusAccess} {rest : List Event} (hs : s.schedule = .bus a :: rest)
    (hr : s.resetAsserted = true) : step s = .fault .accessInReset := by
  rw [step_cons hs]
  exact if_pos hr

theorem locate_outsideWindow {c : Config} {a : BusAccess} (h : a.addr < c.base ∨ c.base + windowSize ≤ a.addr) :
    locate c a = .error .outsideWindow :=
  if_pos (by omega)

/-- Settles O25, a clause for each level of the reset input. -/
theorem foreignOrResetAccessFaults : Obligations.ForeignOrResetAccessFaults :=
  fun _ _ _ hs => ⟨step_bus_inReset hs, fun hr hout => step_bus_fault hs hr (locate_outsideWindow hout)⟩

/-! ## The reset input -/

theorem step_assertReset {s : State} {rest : List Event} (hs : s.schedule = .assertReset :: rest) :
    step s = .next (resetTo true { s with schedule := rest }) :=
  step_cons hs

theorem step_releaseReset {s : State} {rest : List Event} (hs : s.schedule = .releaseReset :: rest)
    (hr : s.resetAsserted = true) : step s = .next (resetTo false { s with schedule := rest }) := by
  rw [step_cons hs]
  exact congrArg Host.Outcome.next (if_pos hr)

/-- What a step that resets the machine leaves (R37, R170). -/
theorem reset_values_of_step {s : State} {level : Bool} {rest : List Event}
    (h : step s = .next (resetTo level { s with schedule := rest })) : ∃ t, step s = .next t ∧ t.resetAsserted = level ∧
      t.vregs = (State.resetWith s.config).vregs ∧ t.statusWord = 0#64 ∧ t.cmdLast = 0#64 ∧ t.busy = false ∧
      t.config = s.config ∧ t.schedule = rest ∧ t.responses = s.responses :=
  ⟨_, h, rfl, rfl, statusWord_resetTo _ _, rfl, rfl, rfl, rfl, rfl⟩

/-- Settles O34: asserting the input and releasing an asserted one are the same reset at two levels. -/
theorem resetInputResets : Obligations.ResetInputResets :=
  fun _ _ => ⟨fun hs => reset_values_of_step (step_assertReset hs),
    fun hs hr => reset_values_of_step (step_releaseReset hs hr)⟩

end Sys2Proof.Machine
end
